-- ==== Sys2Proof/Word.lean ====
section
/-! DEFINITION. The word types of the MCE: widths as 10_state.md R21 and 30_encoding.md R81 give them. -/

namespace Sys2Proof

/-- One byte of the input buffer (10_state.md R30). -/
abbrev Byte := BitVec 8

/-- One command word, as offered on the port `cmd` (30_encoding.md R80). -/
abbrev Word := BitVec 32

/-- A buffer address, a buffer length, the cursor: `CUR_W` = 12 bits (00_scope.md R7, 30_encoding.md R82). -/
abbrev Addr := BitVec 12

end Sys2Proof
end

