-- ==== Sys2Proof/Config.lean ====
section
/-! DEFINITION. What is fixed when the block is built (00_scope.md R7, 10_state.md R51), and the values the spec leaves
open. -/

namespace Sys2Proof

/-- The implementation parameters of 00_scope.md R7. `CMD_W` and `CUR_W` are fixed there and stand in the types of
Word.lean; `UNIT_CYCLES` and `TMR_W` are derived below. -/
structure Config where
  /-- `UNIT_MS`: base dot duration in milliseconds, at least 1. -/
  unitMs      : Nat
  /-- `CYCLES_PER_MS`: clock cycles per millisecond, at least 1; OPEN. -/
  cyclesPerMs : Nat
  /-- `BUF_DEPTH`: bytes of input buffer, 1 to 4095. -/
  bufDepth    : Nat
  deriving DecidableEq, Repr

/-- `UNIT_CYCLES = UNIT_MS * CYCLES_PER_MS` (00_scope.md R7). -/
def Config.unitCycles (c : Config) : Nat := c.unitMs * c.cyclesPerMs

/-- `TMR_W`: the least integer with `2^TMR_W > 7*UNIT_CYCLES - 1` (00_scope.md R7). -/
def Config.tmrW (c : Config) : Nat := Nat.log2 (7 * c.unitCycles - 1) + 1

/-- The ranges 00_scope.md R7 gives the parameters. -/
abbrev Config.Valid (c : Config) : Prop :=
  1 ≤ c.unitMs ∧ 1 ≤ c.cyclesPerMs ∧ 1 ≤ c.bufDepth ∧ c.bufDepth ≤ 4095

/-- OPEN parameter (00_scope.md R7, 93_implementation_defined.md U5): one less than the `CYCLES_PER_MS` of
`State.reset`. It has no body, so no proof can lean on a value (log 1). -/
opaque Config.openCyclesPerMs : Nat

/-- The parameters of `State.reset`: the defaults of 00_scope.md R7, and the open clock rate (log 1, DESIGN CHOICE:
R7 leaves `CYCLES_PER_MS` open, at least 1). -/
def Config.standard : Config :=
  { unitMs := 200, cyclesPerMs := Config.openCyclesPerMs + 1, bufDepth := 64 }

/-- FREE VALUE (60_exceptions.md R201, 93_implementation_defined.md U2; log 6): `freePeek n` is what
`{PEEK_VALID, PEEK_CHAR}` shows in a cycle whose draw is `n`, when the byte at `cur` was never written. -/
opaque Config.freePeek : Nat → BitVec 9

end Sys2Proof
end

