-- ==== Sys2Proof/Machine/State.lean ====
section
/-! DEFINITION. The state of the MCE: every register of 10_state.md R21, the samples its input ports will take, and
three fields of the model's own (`cfg`, `inputs`, `draws`). Plain data. -/

namespace Sys2Proof.Machine

/-- The states of the playback machine (10_state.md R22). Codes 5 to 7 are never taken (R23). -/
inductive St where
  /-- 0: no operation in progress. -/
  | idle
  /-- 1: an element's tone is sounding. -/
  | mark
  /-- 2: intra-character gap after a non-final element. -/
  | egap
  /-- 3: word gap for a space byte. -/
  | word
  /-- 4: inter-character gap started by GAP. -/
  | cgap
  deriving DecidableEq, Repr

/-- What the last CONSUME did (10_state.md R39). Codes 5 to 7 are never written. -/
inductive LastAct where
  /-- 0: no CONSUME since reset. -/
  | none
  /-- 1: the buffer was exhausted. -/
  | exhausted
  /-- 2: the next byte was unresolvable. -/
  | unresolvable
  /-- 3: a space started a word gap. -/
  | silence
  /-- 4: a letter or digit started. -/
  | played
  deriving DecidableEq, Repr

/-- The first command error since reset (10_state.md R40). Codes 5 to 15 are never written. -/
inductive ErrCode where
  /-- 0: no error since reset. -/
  | none
  /-- 1. -/
  | illegalOp
  /-- 2. -/
  | rsvNonzero
  /-- 3. -/
  | addrRange
  /-- 4. -/
  | lenRange
  deriving DecidableEq, Repr

/-- What one rising edge of `clk` samples on the input ports (10_state.md R26). -/
structure Inputs where
  rst      : Bool
  cmdValid : Bool
  cmd      : Word
  deriving DecidableEq, Repr

/-- The state. The names are the spec's. -/
structure State where
  /-- The parameters the block was built with (00_scope.md R7); no step changes them (10_state.md R51). Model's own
  field (log 1). -/
  cfg     : Config
  /-- State of the playback machine (10_state.md R22). -/
  st      : St
  /-- Cycles remaining in the segment, minus one (10_state.md R34); below `2^TMR_W` in every state that meets
  the invariant (log 7). -/
  tmr     : Nat
  /-- Element pattern, bit i is element i, 0 dot, 1 dash (10_state.md R35). -/
  pat     : BitVec 5
  /-- Element count of the character (10_state.md R36). -/
  slen    : BitVec 3
  /-- Index of the element sounding or just finished (10_state.md R37). -/
  idx     : BitVec 3
  /-- The input cursor (10_state.md R31). -/
  cur     : Addr
  /-- Length of the current buffer (10_state.md R32). -/
  len     : Addr
  /-- The bytes of the input buffer written since reset (10_state.md R30), addresses strictly rising. An address that
  is not listed is one whose `written` bit is 0 (R49): it holds no value (log 4). -/
  buf     : List Host.Cell
  /-- Result of the last PEEK (10_state.md R38). -/
  rsp     : BitVec 9
  /-- What the last CONSUME did (10_state.md R39). -/
  lastAct : LastAct
  /-- The first command error since reset (10_state.md R40). -/
  errCode : ErrCode
  /-- The command word of that error (10_state.md R41). -/
  errWord : Word
  /-- What the coming edges sample on the ports `rst`, `cmd_valid` and `cmd`, the next edge first (10_state.md R26;
  log 2). -/
  inputs  : List Inputs
  /-- Which free value this cycle's status peek fields draw over an unwritten byte (60_exceptions.md R201; log 6).
  Model's own field. -/
  draws   : Nat
  deriving DecidableEq, Repr

/-- Why the model stops. -/
inductive Fault where
  /-- `UnwrittenRead(a)`, the one model-only fault (60_exceptions.md R200): PEEK or CONSUME reads `buf[a]`, and nothing
  wrote that byte since reset. SAFE: the chip reads some byte and goes on, the model stops. -/
  | unwrittenRead (a : Nat)
  deriving DecidableEq, Repr

/-- Why a command has no meaning in the model. -/
inductive Refusal where
  /-- Raised by an arm of `exec` whose command has no meaning yet; no arm of this model does. SAFE. -/
  | notModelled (mnemonic : String)
  deriving DecidableEq, Repr

/-- The state after a reset edge (10_state.md R48, 70_reset_and_hazards.md R210), with the parameters of
`Config.standard` and a host that has driven nothing yet (log 1, log 2, log 3, log 6). -/
def State.reset : State :=
  { cfg     := Config.standard
    st      := .idle
    tmr     := 0
    pat     := 0
    slen    := 0
    idx     := 0
    cur     := 0
    len     := 0
    buf     := []
    rsp     := 0
    lastAct := .none
    errCode := .none
    errWord := 0
    inputs  := []
    draws   := 0 }

end Sys2Proof.Machine
end

