-- ==== Sys2Proof/Machine/Alphabet.lean ====
section
/-! DEFINITION. The signal alphabet (40_alphabet.md): classifier, ROMs, `resolve`, `upcase`. Constants and
combinational logic (R100). -/

namespace Sys2Proof.Machine

/-- The class of a byte (40_alphabet.md R101); the indices are those of R102. -/
inductive Class where
  | letter (i : Fin 26)
  | digit  (i : Fin 10)
  | space
  | unres
  deriving DecidableEq, Repr

/-- `classify(b)` (40_alphabet.md R101). -/
def classify (b : Byte) : Class :=
  if hU : 0x41 ≤ b.toNat ∧ b.toNat ≤ 0x5A then .letter ⟨b.toNat - 0x41, by omega⟩
  else if hL : 0x61 ≤ b.toNat ∧ b.toNat ≤ 0x7A then .letter ⟨b.toNat - 0x61, by omega⟩
  else if hD : 0x30 ≤ b.toNat ∧ b.toNat ≤ 0x39 then .digit ⟨b.toNat - 0x30, by omega⟩
  else if b = 0x20 then .space
  else .unres

/-- `ROM_L`, A to Z (40_alphabet.md R105). -/
def romLTable : Vector (BitVec 8) 26 :=
  #v[0x42, 0x81, 0x85, 0x61, 0x20, 0x84, 0x63, 0x80, 0x40, 0x8E, 0x65, 0x82, 0x43,
     0x41, 0x67, 0x86, 0x8B, 0x62, 0x60, 0x21, 0x64, 0x88, 0x66, 0x89, 0x8D, 0x83]

/-- `ROM_D`, 0 to 9 (40_alphabet.md R105). -/
def romDTable : Vector (BitVec 8) 10 :=
  #v[0xBF, 0xBE, 0xBC, 0xB8, 0xB0, 0xA0, 0xA1, 0xA3, 0xA7, 0xAF]

/-- `ROM_L(i)`. -/
def romL (i : Fin 26) : BitVec 8 := romLTable[i]

/-- `ROM_D(i)`. -/
def romD (i : Fin 10) : BitVec 8 := romDTable[i]

/-- SLEN of a ROM entry, bits 7:5 (40_alphabet.md R104). -/
def entrySlen (e : BitVec 8) : BitVec 3 := e.extractLsb' 5 3

/-- PAT of a ROM entry, bits 4:0 (40_alphabet.md R104). -/
def entryPat (e : BitVec 8) : BitVec 5 := e.extractLsb' 0 5

/-- What a byte resolves to (40_alphabet.md R106). -/
inductive Resolution where
  | signal (entry : BitVec 8)
  | silence
  | unresolvable
  deriving DecidableEq, Repr

/-- `resolve(b)` (40_alphabet.md R106). -/
def resolve (b : Byte) : Resolution :=
  match classify b with
  | .letter i => .signal (romL i)
  | .digit i  => .signal (romD i)
  | .space    => .silence
  | .unres    => .unresolvable

/-- `upcase(b)` (40_alphabet.md R107). -/
def upcase (b : Byte) : Byte :=
  if 0x61 ≤ b.toNat ∧ b.toNat ≤ 0x7A then b - 0x20 else b

end Sys2Proof.Machine
end

