-- ==== Sys2Proof/Syntax.lean ====
section
/-! DEFINITION. The six commands of MCE-CMD revision 1 (30_encoding.md R83). -/

namespace Sys2Proof

/-- A command of defined OP with RSV = 0. Every constructor carries both operand fields of the word, `a` = w[19:8] and
`d` = w[7:0] (30_encoding.md R81), also where the command ignores them (R85): a range error records the whole
word (60_exceptions.md R181), and no bit of the encoding is dropped (log 9). -/
inductive Instr where
  /-- NOP, no operation (41_buffer_commands.md R123); `a` and `d` ignored. -/
  | nop     (a : Addr) (d : Byte)
  /-- WRBUF, write byte `d` at buffer address `a` (41_buffer_commands.md R124). -/
  | wrbuf   (a : Addr) (d : Byte)
  /-- LOAD, a new buffer of length `a` (41_buffer_commands.md R125); `d` ignored. -/
  | load    (a : Addr) (d : Byte)
  /-- PEEK, sample the next character into `rsp` (41_buffer_commands.md R127); `a` and `d` ignored. -/
  | peek    (a : Addr) (d : Byte)
  /-- CONSUME, play or pass the next character (42_playback.md R155); `a` and `d` ignored. -/
  | consume (a : Addr) (d : Byte)
  /-- GAP, the inter-character gap (42_playback.md R161); `a` and `d` ignored. -/
  | gap     (a : Addr) (d : Byte)
  deriving DecidableEq, Repr

end Sys2Proof
end

