-- ==== Sys2Proof/WellFormed.lean ====
section
/-! DEFINITION. Which commands are legal for a buffer of a given depth. -/

namespace Sys2Proof

/-- The value conditions of 30_encoding.md R84 on a word of legal shape: a WRBUF address is below `BUF_DEPTH`, a LOAD
length is at most `BUF_DEPTH`. No other command has one (R89). -/
def Instr.wellFormed (depth : Nat) : Instr → Bool
  | .nop _ _     => true
  | .wrbuf a _   => decide (a.toNat < depth)
  | .load a _    => decide (a.toNat ≤ depth)
  | .peek _ _    => true
  | .consume _ _ => true
  | .gap _ _     => true

end Sys2Proof
end

