-- ==== Sys2Proof/Decode.lean ====
section
/-! DEFINITION. The command word: its fields, the decoder, the checks of 30_encoding.md R84, and the encoder. -/

namespace Sys2Proof

/-- The four command errors (60_exceptions.md R181). -/
inductive CmdError where
  /-- Code 1: OP is 6 to 15. -/
  | illegalOp
  /-- Code 2: OP is 0 to 5 and RSV is not 0. -/
  | rsvNonzero
  /-- Code 3: WRBUF with A at or beyond `BUF_DEPTH`. -/
  | addrRange
  /-- Code 4: LOAD with A beyond `BUF_DEPTH`. -/
  | lenRange
  deriving DecidableEq, Repr

/-- OP, bits 31:28 (30_encoding.md R81). -/
def opField (w : Word) : BitVec 4 := w.extractLsb' 28 4

/-- RSV, bits 27:20 (30_encoding.md R81). -/
def rsvField (w : Word) : BitVec 8 := w.extractLsb' 20 8

/-- A, bits 19:8 (30_encoding.md R81). -/
def aField (w : Word) : Addr := w.extractLsb' 8 12

/-- D, bits 7:0 (30_encoding.md R81). -/
def dField (w : Word) : Byte := w.extractLsb' 0 8

/-- The opcode map of 30_encoding.md R83: the command an OP names, none for the reserved 6 to 15 (R86). -/
def commandOf (op : BitVec 4) : Option (Addr → Byte → Instr) :=
  match op.toNat with
  | 0 => some .nop
  | 1 => some .wrbuf
  | 2 => some .load
  | 3 => some .peek
  | 4 => some .consume
  | 5 => some .gap
  | _ => none

/-- The checks of 30_encoding.md R84 that need the word alone, in its order: a reserved OP is refused as ILLEGAL_OP
whatever the other fields hold (R86), then a nonzero RSV as RSV_NONZERO (R87). -/
def decode (w : Word) : Except CmdError Instr :=
  match commandOf (opField w) with
  | none     => .error .illegalOp
  | some mk  => if rsvField w = 0 then .ok (mk (aField w) (dField w)) else .error .rsvNonzero

/-- The range checks of 30_encoding.md R84, which come last. The meanings of WRBUF and LOAD make them. -/
def rangeError (depth : Nat) : Instr → Option CmdError
  | .nop _ _     => none
  | .wrbuf a _   => if depth ≤ a.toNat then some .addrRange else none
  | .load a _    => if depth < a.toNat then some .lenRange else none
  | .peek _ _    => none
  | .consume _ _ => none
  | .gap _ _     => none

/-- `decode(w)` of 30_encoding.md R84 whole: the first check that fails names the error. -/
def checkedDecode (depth : Nat) (w : Word) : Except CmdError Instr :=
  match decode w with
  | .error e => .error e
  | .ok i    =>
    match rangeError depth i with
    | some e => .error e
    | none   => .ok i

/-- A word from its fields, RSV = 0 (30_encoding.md R81, R90). -/
def packWord (op : BitVec 4) (a : Addr) (d : Byte) : Word := op ++ (0#8 ++ (a ++ d))

/-- The word of a command, every field in its place (30_encoding.md R81, R83). -/
def encode : Instr → Word
  | .nop a d     => packWord 0 a d
  | .wrbuf a d   => packWord 1 a d
  | .load a d    => packWord 2 a d
  | .peek a d    => packWord 3 a d
  | .consume a d => packWord 4 a d
  | .gap a d     => packWord 5 a d

/-- The word of `nbits` bits that the opcode table numbers `w`, all bits above zero. A command word is one 32-bit bus
word whose fields are defined by bit position, so there is no byte order to apply (20_memory.md R66). -/
def tableWord (nbits w : Nat) : Word := BitVec.ofNat 32 (w % 2 ^ nbits)

/-- What the decoder reads from a word numbered as spec/opcode_table.json numbers it. -/
def decodeTableWord (nbits w : Nat) : Option Instr :=
  match decode (tableWord nbits w) with
  | .ok i    => some i
  | .error _ => none

end Sys2Proof
end

