-- ==== Sys2Proof/Machine/Ops.lean ====
section
/-! DEFINITION. The named operations over the buffer, the registers and the input ports; recording a command error;
reset. -/

namespace Sys2Proof.Machine

/-- The canonical form of the buffer's contents: addresses strictly rising. Every byte value may be listed, because an
unlisted address holds none (10_state.md R49). -/
abbrev Memory.wf (m : List Host.Cell) : Prop := m.Pairwise (fun p q => p.1 < q.1)

/-- Every listed address exists in a buffer of `depth` bytes (20_memory.md R61). -/
abbrev Memory.fits (depth : Nat) (m : List Host.Cell) : Prop := ∀ p ∈ m, p.1 < depth

/-- The byte at `a`, none where `written[a] = 0` (10_state.md R49). -/
def bufLookup : List Host.Cell → Nat → Option Byte
  | [], _          => none
  | (k, v) :: m, a => if a = k then some v else bufLookup m a

/-- `written[a]` (10_state.md R49). -/
def written (s : State) (a : Nat) : Bool := (bufLookup s.buf a).isSome

/-- The contents with `v` at `a`, in canonical form. -/
def bufInsert : List Host.Cell → Nat → Byte → List Host.Cell
  | [], a, v          => [(a, v)]
  | (k, x) :: m, a, v =>
    if a < k then (a, v) :: (k, x) :: m
    else if a = k then (a, v) :: m
    else (k, x) :: bufInsert m a v

/-- `BufRead(a)` (20_memory.md R62). -/
def bufRead (s : State) (a : Nat) : Except Fault Byte :=
  match bufLookup s.buf a with
  | some v => .ok v
  | none   => .error (.unwrittenRead a)

/-- `BufWrite(a, v)` (20_memory.md R63); its one caller has checked the range. -/
def bufWrite (s : State) (a : Nat) (v : Byte) : State := { s with buf := bufInsert s.buf a v }

/-- The code `err_code` takes for an error (60_exceptions.md R181). -/
def errCodeOf : CmdError → ErrCode
  | .illegalOp  => .illegalOp
  | .rsvNonzero => .rsvNonzero
  | .addrRange  => .addrRange
  | .lenRange   => .lenRange

/-- `record_error(code, w, s)` (60_exceptions.md R182): all that an exception does in this machine. The first error
since reset is kept, and nothing else changes (R183, R187); there is no return from it (R188). -/
def recordError (e : CmdError) (w : Word) (s : State) : State :=
  if s.errCode = .none then { s with errCode := errCodeOf e, errWord := w } else s

/-- A reset edge (10_state.md R48, 70_reset_and_hazards.md R210): every register takes its reset value and every byte
of the buffer counts as unwritten (R214). The parameters, the host's coming samples and the draw counter are
not registers of the block. -/
def resetState (s : State) : State :=
  { State.reset with cfg := s.cfg, inputs := s.inputs, draws := s.draws }

/-- A port sample that offers nothing. -/
def Inputs.quiet : Inputs := { rst := false, cmdValid := false, cmd := 0 }

/-- A port sample that offers the command word `w`. -/
def Inputs.offer (w : Word) : Inputs := { rst := false, cmdValid := true, cmd := w }

/-- What the coming edge samples (10_state.md R26). A host that has driven nothing offers nothing (log 2). -/
def sampled (s : State) : Inputs := s.inputs.headD Inputs.quiet

/-- The model's own bookkeeping of an edge: its sample is used up and the next cycle has a draw of its own. -/
def tick (s : State) : State := { s with inputs := s.inputs.tail, draws := s.draws + 1 }

end Sys2Proof.Machine
end

