-- ==== Sys2Proof/Machine/Operands.lean ====
section
/-! DEFINITION. The operand forms: the fields A and D of a word (30_encoding.md R82), and the one byte a command reads,
`buf[cur]` (20_memory.md R64). -/

namespace Sys2Proof.Machine

/-- A as a buffer address or length: unsigned, never scaled, shifted or sign-extended (30_encoding.md R82). -/
def operandA (a : Addr) : Nat := a.toNat

/-- D as the byte to store, unchanged (30_encoding.md R82). -/
def operandD (d : Byte) : Byte := d

/-- The buffer is exhausted: `cur >= len` (10_state.md R32). -/
def exhausted (s : State) : Bool := decide (s.len.toNat ≤ s.cur.toNat)

/-- The byte at the cursor, where PEEK and CONSUME read (20_memory.md R62, R64). -/
def cursorByte (s : State) : Except Fault Byte := bufRead s s.cur.toNat

/-- The last two lines of `peek` (41_buffer_commands.md R126), as {valid, char}. -/
def peekByte (b : Byte) : BitVec 9 :=
  match classify b with
  | .letter _ => 1#1 ++ upcase b
  | .digit _  => 1#1 ++ upcase b
  | .space    => 1#1 ++ upcase b
  | .unres    => 0

/-- `peek(cur, len, buf)` as PEEK evaluates it (41_buffer_commands.md R126, R127). -/
def peek (s : State) : Except Fault (BitVec 9) :=
  if exhausted s then .ok 0
  else
    match cursorByte s with
    | .ok b    => .ok (peekByte b)
    | .error f => .error f

end Sys2Proof.Machine
end

