-- ==== Sys2Proof/Machine/BufferCommands.lean ====
section
/-! DEFINITION. The meanings of NOP, WRBUF, LOAD and PEEK (41_buffer_commands.md), each on the state `s1` of R120. -/

namespace Sys2Proof.Machine

/-- NOP (41_buffer_commands.md R123): nothing changes. -/
def execNop (_a : Addr) (_d : Byte) (s : State) : Host.Outcome State Fault Refusal := .next s

/-- WRBUF (41_buffer_commands.md R124): one byte of the buffer; at or beyond `BUF_DEPTH` the error ADDR_RANGE, with the
whole word, and no write (60_exceptions.md R181). -/
def execWrbuf (a : Addr) (d : Byte) (s : State) : Host.Outcome State Fault Refusal :=
  if operandA a < s.cfg.bufDepth then .next (bufWrite s (operandA a) (operandD d))
  else .next (recordError .addrRange (encode (.wrbuf a d)) s)

/-- LOAD (41_buffer_commands.md R125): a new buffer of length `a`, its cursor at 0; beyond `BUF_DEPTH` the error
LEN_RANGE, with the whole word, and `len` and `cur` unchanged (60_exceptions.md R181). -/
def execLoad (a : Addr) (d : Byte) (s : State) : Host.Outcome State Fault Refusal :=
  if operandA a ≤ s.cfg.bufDepth then .next { s with len := a, cur := 0 }
  else .next (recordError .lenRange (encode (.load a d)) s)

/-- PEEK (41_buffer_commands.md R127): `rsp` takes `peek()`; an unwritten byte at the cursor is the model-only fault
(60_exceptions.md R200). -/
def execPeek (_a : Addr) (_d : Byte) (s : State) : Host.Outcome State Fault Refusal :=
  match peek s with
  | .ok r    => .next { s with rsp := r }
  | .error f => .fault f

end Sys2Proof.Machine
end

