-- ==== Sys2Proof/Machine/Playback.lean ====
section
/-! DEFINITION. Segments, the countdown timer, and the advance of a running operation (42_playback.md). -/

namespace Sys2Proof.Machine

/-- `dur(pat, i)` in cycles (42_playback.md R141): one UNIT for a dot, three for a dash. -/
def dur (u : Nat) (pat : BitVec 5) (i : Nat) : Nat := if pat.getLsbD i then 3 * u else u

/-- A segment of `k` cycles starts in state `q` (10_state.md R34, 42_playback.md R146). -/
def startSegment (q : St) (k : Nat) (s : State) : State := { s with st := q, tmr := k - 1 }

/-- Another element of the character follows the one at `idx` (42_playback.md R143). -/
def moreElements (s : State) : Bool := decide (s.idx.toNat + 1 < s.slen.toNat)

/-- The edge that finds `tmr == 0`: the segment ends and, inside a character, the next one starts
(42_playback.md R143). -/
def endSegment (s : State) : State :=
  match s.st with
  | .idle => s
  | .mark =>
    if moreElements s then startSegment .egap s.cfg.unitCycles s
    else { s with st := .idle }
  | .egap =>
    startSegment .mark (dur s.cfg.unitCycles s.pat (s.idx.toNat + 1)) { s with idx := s.idx + 1 }
  | .word => { s with st := .idle }
  | .cgap => { s with st := .idle }

/-- `advance(s)` (42_playback.md R143), applied only where `st` is not IDLE. -/
def advance (s : State) : State :=
  if s.tmr ≠ 0 then { s with tmr := s.tmr - 1 } else endSegment s

/-- `finishing(s)`: the last cycle of an operation (42_playback.md R144). -/
def finishing (s : State) : Bool :=
  s.tmr == 0 &&
    match s.st with
    | .idle => false
    | .mark => !moreElements s
    | .egap => false
    | .word => true
    | .cgap => true

/-- The output `cmd_ready` (10_state.md R29). -/
def cmdReady (s : State) : Bool := s.st == .idle || finishing s

end Sys2Proof.Machine
end

