-- ==== Sys2Proof/Machine/PlaybackCommands.lean ====
section
/-! DEFINITION. The meanings of CONSUME and GAP (42_playback.md), each on the state `s1` of R120. -/

namespace Sys2Proof.Machine

/-- CONSUME of a letter or digit with ROM entry `e` (42_playback.md R155, R158): the cursor moves before the first tone,
the entry is latched, element 0 starts. -/
def startCharacter (e : BitVec 8) (s : State) : State :=
  startSegment .mark (dur s.cfg.unitCycles (entryPat e) 0)
    { s with cur := s.cur + 1, pat := entryPat e, slen := entrySlen e, idx := 0, lastAct := .played }

/-- CONSUME of a space (42_playback.md R155, R157): the cursor moves, seven UNITs of silence start. -/
def startWordGap (s : State) : State :=
  startSegment .word (7 * s.cfg.unitCycles) { s with cur := s.cur + 1, lastAct := .silence }

/-- The `case resolve(b)` of CONSUME (42_playback.md R155). An unresolvable byte halts: nothing moves (R160). -/
def consumeByte (b : Byte) (s : State) : State :=
  match resolve b with
  | .silence      => startWordGap s
  | .signal e     => startCharacter e s
  | .unresolvable => { s with lastAct := .unresolvable }

/-- CONSUME (42_playback.md R155); an unwritten byte at the cursor is the model-only fault (60_exceptions.md R200). -/
def execConsume (_a : Addr) (_d : Byte) (s : State) : Host.Outcome State Fault Refusal :=
  if exhausted s then .next { s with lastAct := .exhausted }
  else
    match cursorByte s with
    | .ok b    => .next (consumeByte b s)
    | .error f => .fault f

/-- GAP (42_playback.md R161): three UNITs of silence. -/
def execGap (_a : Addr) (_d : Byte) (s : State) : Host.Outcome State Fault Refusal :=
  .next (startSegment .cgap (3 * s.cfg.unitCycles) s)

end Sys2Proof.Machine
end

