-- ==== Sys2Proof/Machine/Dispatch.lean ====
section
/-! DEFINITION. Dispatch (41_buffer_commands.md R122): one arm per command. -/

namespace Sys2Proof.Machine

def exec (i : Instr) (s : State) : Host.Outcome State Fault Refusal :=
  match i with
  | .nop a d => Sys2Proof.Machine.execNop a d s
  | .wrbuf a d => Sys2Proof.Machine.execWrbuf a d s
  | .load a d => Sys2Proof.Machine.execLoad a d s
  | .peek a d => Sys2Proof.Machine.execPeek a d s
  | .consume a d => Sys2Proof.Machine.execConsume a d s
  | .gap a d => Sys2Proof.Machine.execGap a d s

end Sys2Proof.Machine
end

