-- ==== Sys2Proof/Machine/Flags.lean ====
section
/-! DEFINITION. The flags (10_state.md R46), the `status` word (R42) and the outputs (R27): functions of the registers
of the same cycle. -/

namespace Sys2Proof.Machine

/-- The code of `st` on `status` (10_state.md R22). -/
def stCode : St → BitVec 3
  | .idle => 0
  | .mark => 1
  | .egap => 2
  | .word => 3
  | .cgap => 4

/-- The code of `last_act` (10_state.md R39). -/
def lastActCode : LastAct → BitVec 3
  | .none         => 0
  | .exhausted    => 1
  | .unresolvable => 2
  | .silence      => 3
  | .played       => 4

/-- The code of `err_code` (10_state.md R40). -/
def errCodeCode : ErrCode → BitVec 4
  | .none       => 0
  | .illegalOp  => 1
  | .rsvNonzero => 2
  | .addrRange  => 3
  | .lenRange   => 4

/-- BUSY (10_state.md R42). -/
def busy (s : State) : Bool := s.st != .idle

/-- The output `tone_out` (10_state.md R28), also the status field TONE. -/
def toneOut (s : State) : Bool := s.st == .mark

/-- ERR (10_state.md R42). -/
def errFlag (s : State) : Bool := s.errCode != .none

/-- `{PEEK_VALID, PEEK_CHAR}` (10_state.md R44): the combinational look at `buf[cur]`, which never faults. Over a byte
never written it is a free value (60_exceptions.md R201, log 6). -/
def peekFields (s : State) : BitVec 9 :=
  match peek s with
  | .ok r    => r
  | .error _ => Config.freePeek s.draws

/-- PEEK_VALID (10_state.md R44). -/
def peekValid (s : State) : Bool := (peekFields s).getLsbD 8

/-- PEEK_CHAR (10_state.md R44). -/
def peekChar (s : State) : Byte := (peekFields s).extractLsb' 0 8

/-- The `status` word, bit 31 first: reserved 31:24, ERR_CODE 23:20, reserved 19, ST 18:16, PEEK_CHAR 15:8, reserved 7,
LAST_ACT 6:4, ERR 3, PEEK_VALID 2, TONE 1, BUSY 0 (10_state.md R42). -/
def status (s : State) : BitVec 32 :=
  0#8 ++ (errCodeCode s.errCode ++ (0#1 ++ (stCode s.st ++ (peekChar s ++ (0#1 ++ (lastActCode s.lastAct ++
    (BitVec.ofBool (errFlag s) ++ (BitVec.ofBool (peekValid s) ++
      (BitVec.ofBool (toneOut s) ++ BitVec.ofBool (busy s))))))))))

/-- The output ports (10_state.md R27). -/
structure Outputs where
  cmdReady : Bool
  toneOut  : Bool
  status   : BitVec 32
  cursor   : Addr
  length   : Addr
  rsp      : BitVec 9
  errWord  : Word
  deriving DecidableEq, Repr

/-- What the ports show in the cycle of state `s` (10_state.md R27). -/
def outputs (s : State) : Outputs :=
  { cmdReady := cmdReady s
    toneOut  := toneOut s
    status   := status s
    cursor   := s.cur
    length   := s.len
    rsp      := s.rsp
    errWord  := s.errWord }

end Sys2Proof.Machine
end

