-- ==== Sys2Proof/Machine/Edge.lean ====
section
/-! DEFINITION. One rising edge of `clk` (41_buffer_commands.md R120 to R122). -/

namespace Sys2Proof.Machine

/-- `exec(w, s)` of 41_buffer_commands.md R122: a word that does not decode records its error, a command runs. -/
def execWord (w : Word) (s : State) : Host.Outcome State Fault Refusal :=
  match decode w with
  | .error e => .next (recordError e w s)
  | .ok i    => exec i s

/-- The state `s1` of 41_buffer_commands.md R120: the running operation, if any, has advanced. -/
def advanced (s : State) : State := if s.st = .idle then s else advance s

/-- The edge accepts the offered command (41_buffer_commands.md R121). -/
def accepts (p : Inputs) (s : State) : Bool := !p.rst && p.cmdValid && cmdReady s

/-- `step(s, rst, cmd_valid, cmd)` of 41_buffer_commands.md R120. -/
def edge (p : Inputs) (s : State) : Host.Outcome State Fault Refusal :=
  if p.rst then .next (resetState s)
  else if accepts p s then execWord p.cmd (advanced s)
  else .next (advanced s)

/-- `s` with the word `w` offered at the next edge, and ready to take it: where an operation still runs, ended (log 16).
A tool for loading, no behaviour of the block. -/
def presentWord (w : Word) (s : State) : State :=
  let t : State := { s with inputs := Inputs.offer w :: s.inputs.tail }
  if cmdReady s then t else { t with st := .idle, tmr := 0 }

end Sys2Proof.Machine
end

