-- ==== Sys2Proof/Machine/Step.lean ====
section
/-! DEFINITION. One step of the model is one rising edge, with what the host drives at it (41_buffer_commands.md
R120). -/

namespace Sys2Proof.Machine

/-- The next edge: its port sample is taken from `inputs`. -/
def step (s : State) : Host.Outcome State Fault Refusal := edge (sampled s) (tick s)

/-- `s` with the instruction numbered `w` placed where `step` takes its next command: on the port `cmd`, offered, with
no reset, at the next edge (log 3, log 16). -/
def State.withFetchWord (s : State) (nbits w : Nat) : State := presentWord (tableWord nbits w) s

end Sys2Proof.Machine
end

