-- ==== Sys2Proof/Machine/HostProgram.lean ====
section
/-! DEFINITION. The host side of the contract, as definitions over `step`: pseudo-commands (30_encoding.md R91), runs of
a command program (70_reset_and_hazards.md R225), the document's host loop (60_exceptions.md R198). The block's own
step uses none of them. -/

namespace Sys2Proof.Machine

/-- The WRBUFs of `WRSTR` (30_encoding.md R91): one for each byte, from address `a` up. -/
def wrbufs : Nat → List Byte → List Instr
  | _, []      => []
  | a, b :: bs => .wrbuf (BitVec.ofNat 12 a) b :: wrbufs (a + 1) bs

/-- `WRSTR a, "s"` (30_encoding.md R91) for a buffer of `depth` bytes. R91 requires `a + k <= BUF_DEPTH` and does not say
what the line is otherwise: the model's choice (log 19, DESIGN CHOICE) is no expansion, `none`, as the assembler of R90
rejects an operand out of range. -/
def wrstr (depth a : Nat) (bs : List Byte) : Option (List Instr) :=
  if a + bs.length ≤ depth then some (wrbufs a bs) else none

/-- `LDSTR "s"` (30_encoding.md R91): `WRSTR 0, "s"`, then LOAD of its length; `none` where WRSTR is (log 19). -/
def ldstr (depth : Nat) (bs : List Byte) : Option (List Instr) :=
  (wrstr depth 0 bs).map (fun ws => ws ++ [.load (BitVec.ofNat 12 bs.length) 0])

/-- The conditional half of `CHAR` (30_encoding.md R91): after a CONSUME, GAP if and only if `last_act == PLAYED`. -/
def charGap (s : State) : Option Instr := if s.lastAct = .played then some (.gap 0 0) else none

/-- One cycle in which the host drives `p`. -/
def drive (p : Inputs) (s : State) : Host.Outcome State Fault Refusal := step { s with inputs := [p] }

/-- What one cycle adds to a run: the tone of the cycle, then the rest; no run where the model stops. -/
def thenRun (s : State) (o : Host.Outcome State Fault Refusal) (k : State → Option (List Bool × State)) :
    Option (List Bool × State) :=
  match o with
  | .next t    => (k t).map (fun r => (toneOut s :: r.1, r.2))
  | .fault _   => none
  | .refused _ => none

/-- One command of a program, with the host's own delay: after the command before it was accepted (or after the run's
start) the host offers nothing for `wait` cycles, whether or not an operation runs, and then the word until it is
accepted (60_exceptions.md R196, R197, 93_implementation_defined.md U16). -/
structure HostOffer where
  wait : Nat
  word : Word
  deriving DecidableEq, Repr

/-- The program of a host that offers each word from the cycle after the accept before it. -/
def promptly (ws : List Word) : List HostOffer := ws.map (fun w => { wait := 0, word := w })

/-- What the host of a program drives in a cycle (60_exceptions.md R196). -/
def programInputs : List HostOffer → Inputs
  | []              => Inputs.quiet
  | ⟨0, w⟩ :: _     => Inputs.offer w
  | ⟨_ + 1, _⟩ :: _ => Inputs.quiet

/-- What is left of a program after a cycle, `ready` being `cmd_ready` in it: a cycle of delay is spent, or the offered
word accepted, or offered again. -/
def programAfter (ready : Bool) : List HostOffer → List HostOffer
  | []               => []
  | ⟨0, w⟩ :: os     => if ready then os else ⟨0, w⟩ :: os
  | ⟨k + 1, w⟩ :: os => ⟨k, w⟩ :: os

/-- A run of a command program (70_reset_and_hazards.md R225) with the host's delays: the run ends at the first cycle in
which every command is accepted and `st` is IDLE. It gives `tone_out` in the cycles before that one, and the state in
it (log 12). `none` means that `fuel` cycles were too few, or that the model stopped. -/
def runProgram : (fuel : Nat) → List HostOffer → State → Option (List Bool × State)
  | 0, _, _      => none
  | n + 1, os, s =>
    if os = [] ∧ s.st = .idle then some ([], s)
    else thenRun s (drive (programInputs os) s) (runProgram n (programAfter (cmdReady s) os))

/-- The two forms of the host loop (60_exceptions.md R198). -/
inductive HostForm where
  /-- The host reads `status.PEEK_VALID` and issues no PEEK. -/
  | status
  /-- The host issues PEEK and reads `rsp`. -/
  | peek
  deriving DecidableEq, Repr

/-- Where the host loop stands: which command of its own was accepted last. -/
inductive HostPhase where
  /-- None yet, or GAP: at the loop's head. -/
  | look
  /-- PEEK: `rsp` is there to be read. -/
  | peeked
  /-- CONSUME: `last_act` is there to be read. -/
  | consumed
  deriving DecidableEq, Repr

/-- The loop's head: "while peek() yields a character". -/
def loopHead (f : HostForm) (s : State) : Option Instr :=
  match f with
  | .status => if peekValid s then some (.consume 0 0) else none
  | .peek   => some (.peek 0 0)

/-- The GAP the host loop issues after a CONSUME: one after every PLAYED character, but after the last one only where
`lastGap` says so, which is the host's own choice (60_exceptions.md R198, 92_eei_decisions.md D24). The last character
is the one behind which `peek()` yields nothing (log 12). -/
def hostGap (lastGap : Bool) (s : State) : Option Instr := if lastGap || peekValid s then charGap s else none

/-- The command the host loop offers in a cycle, none where it has left the loop (60_exceptions.md R198). -/
def hostCommand (f : HostForm) (lastGap : Bool) (p : HostPhase) (s : State) : Option Instr :=
  match p with
  | .look     => loopHead f s
  | .peeked   => if s.rsp.getLsbD 8 then some (.consume 0 0) else none
  | .consumed => (hostGap lastGap s).orElse (fun _ => loopHead f s)

/-- Where the loop stands once `i` was accepted. -/
def hostPhaseAfter : Instr → HostPhase
  | .nop _ _     => .look
  | .wrbuf _ _   => .look
  | .load _ _    => .look
  | .peek _ _    => .peeked
  | .consume _ _ => .consumed
  | .gap _ _     => .look

/-- A cycle of the delay before the host's next command, spent. -/
def delaysSpent : List Nat → List Nat
  | []      => []
  | d :: ds => (d - 1) :: ds

/-- The host loop over the buffer the block holds (60_exceptions.md R198). `delays` holds, for one command of the host
after another, the cycles in which it offers nothing before that command (93_implementation_defined.md U16, counted as
in `HostOffer`), and none where the list has ended; an offered command is held until it is accepted. `lastGap` is the
host's choice of 93_implementation_defined.md U15. The run ends in the first cycle in which the host has left the loop
and `st` is IDLE. It gives `tone_out` in the cycles before that one, and the state in it (log 12). -/
def hostLoop (f : HostForm) (lastGap : Bool) :
    (fuel : Nat) → (delays : List Nat) → HostPhase → State → Option (List Bool × State)
  | 0, _, _, _      => none
  | n + 1, ds, p, s =>
    match hostCommand f lastGap p s with
    | none   =>
      if s.st = .idle then some ([], s) else thenRun s (drive Inputs.quiet s) (hostLoop f lastGap n ds p)
    | some i =>
      if ds.headD 0 = 0 then
        thenRun s (drive (Inputs.offer (encode i)) s)
          (if cmdReady s then hostLoop f lastGap n ds.tail (hostPhaseAfter i) else hostLoop f lastGap n ds p)
      else thenRun s (drive Inputs.quiet s) (hostLoop f lastGap n (delaysSpent ds) p)

end Sys2Proof.Machine
end

