-- ==== Sys2Proof/Safety.lean ====
section
/-! DEFINITION. The terms statements use: the invariant of the machine, the observations of a run, and the Morse signal
a byte stands for. -/

namespace Sys2Proof.Machine

/-- `e` is an entry of one of the alphabet ROMs. -/
def IsEntry (e : BitVec 8) : Prop := (∃ i, e = romL i) ∨ (∃ i, e = romD i)

/-- How many cycles the current segment lasts in all (42_playback.md R142); 1 in IDLE, where `tmr` is 0. -/
def segmentCycles (s : State) : Nat :=
  match s.st with
  | .idle => 1
  | .mark => dur s.cfg.unitCycles s.pat s.idx.toNat
  | .egap => s.cfg.unitCycles
  | .word => 7 * s.cfg.unitCycles
  | .cgap => 3 * s.cfg.unitCycles

/-- The cursor invariant (10_state.md R33). -/
def CursorInBuffer (s : State) : Prop :=
  s.cur.toNat ≤ s.len.toNat ∧ s.len.toNat ≤ s.cfg.bufDepth ∧ s.cfg.bufDepth ≤ 4095

/-- What holds of every state the machine can be in after a reset. -/
structure Invariant (s : State) : Prop where
  /-- The parameters are in the ranges of 00_scope.md R7. -/
  params  : s.cfg.Valid
  /-- 10_state.md R33. -/
  cursor  : CursorInBuffer s
  /-- The buffer's contents are in canonical form. -/
  bufWf   : Memory.wf s.buf
  /-- Only addresses below `BUF_DEPTH` are written (20_memory.md R61). -/
  bufFits : Memory.fits s.cfg.bufDepth s.buf
  /-- `tmr` is below the segment's length, and 0 in IDLE (10_state.md R34). -/
  timer   : s.tmr < segmentCycles s
  /-- `pat` and `slen` are a copy of a ROM entry, or still at reset (10_state.md R35, R36, R50). -/
  latched : (s.pat = 0 ∧ s.slen = 0) ∨ ∃ e, IsEntry e ∧ s.pat = entryPat e ∧ s.slen = entrySlen e
  /-- `idx` is an index of an element (10_state.md R37). -/
  index   : s.idx.toNat < s.slen.toNat ∨ (s.slen = 0 ∧ s.idx = 0)
  /-- Only a character sounds (10_state.md R36). -/
  sounding : s.st = .mark → 0 < s.slen.toNat
  /-- An intra-character gap is followed by an element (42_playback.md R143). -/
  gapInside : s.st = .egap → s.idx.toNat + 1 < s.slen.toNat
  /-- `err_word` is 0 while no error is recorded (10_state.md R41). -/
  error   : s.errCode = .none → s.errWord = 0
  /-- `rsp` shows no character without its valid bit (10_state.md R38). -/
  result  : s.rsp.getLsbD 8 = false → s.rsp = 0

/-- The command the next edge accepts, if it accepts one and the word decodes (41_buffer_commands.md R121). -/
def acceptedCommand (s : State) : Option Instr :=
  if accepts (sampled s) s then
    match decode (sampled s).cmd with
    | .ok i    => some i
    | .error _ => none
  else none

/-- The next edge accepts a word that is a command error (60_exceptions.md R181). -/
def acceptsError (s : State) : Prop :=
  accepts (sampled s) s = true ∧ ∃ e, checkedDecode s.cfg.bufDepth (sampled s).cmd = .error e

/-- The state a command accepted at the next edge runs in: `s1` of 41_buffer_commands.md R120. -/
def atAccept (s : State) : State := advanced (tick s)

/-- An output observed cycle by cycle over `n` cycles from `s` on (00_scope.md R14). -/
def observe {α : Type} (f : State → α) : Nat → State → List α
  | 0, _     => []
  | n + 1, s =>
    f s :: match step s with
      | .next t    => observe f n t
      | .fault _   => []
      | .refused _ => []

/-- The host asserts no reset at the next `n` edges. -/
def NoReset (n : Nat) (s : State) : Prop := ∀ p ∈ s.inputs.take n, p.rst = false

/-- `tone_out` over the elements `i, i+1, …` of a pattern, `n` of them: a mark for each, one UNIT of silence between
(42_playback.md R148, R159). -/
def elementTrace (u : Nat) (pat : BitVec 5) : Nat → Nat → List Bool
  | _, 0     => []
  | i, n + 1 =>
    List.replicate (dur u pat i) true ++
      if n = 0 then [] else List.replicate u false ++ elementTrace u pat (i + 1) n

/-- `tone_out` over the character of a ROM entry (42_playback.md R159). -/
def characterTrace (u : Nat) (e : BitVec 8) : List Bool :=
  elementTrace u (entryPat e) 0 (entrySlen e).toNat

/-- UNITs of tone in a character: the sum of its element durations (40_alphabet.md R105). -/
def toneUnits (e : BitVec 8) : Nat :=
  ((List.range (entrySlen e).toNat).map (fun i => if (entryPat e).getLsbD i then 3 else 1)).sum

/-- `T` of 42_playback.md R150, in UNITs. -/
def operationUnits (e : BitVec 8) : Nat := toneUnits e + ((entrySlen e).toNat - 1)

/-- `tone_out` over one consumed byte and the GAP after it, where the host issues one (60_exceptions.md R196, R198): a
letter or digit, with three UNITs of silence for the GAP; a space with seven and no more. -/
def byteTrace (u : Nat) (gap : Bool) (b : Byte) : List Bool :=
  match resolve b with
  | .signal e     => characterTrace u e ++ if gap then List.replicate (3 * u) false else []
  | .silence      => List.replicate (7 * u) false
  | .unresolvable => []

/-- The bytes of a buffer that are consumed: up to the first unresolvable one (42_playback.md R160). -/
def playable (bs : List Byte) : List Byte := bs.takeWhile (fun b => decide (resolve b ≠ .unresolvable))

/-- `tone_out` over the bytes that are consumed, one after another: before each the cycles `lead`, after each character
its GAP, after the last one only with `lastGap` (92_eei_decisions.md D24). -/
def bufferTrace (lead : List Bool) (u : Nat) (lastGap : Bool) : List Byte → List Bool
  | []      => []
  | b :: bs => lead ++ byteTrace u (lastGap || !bs.isEmpty) b ++ bufferTrace lead u lastGap bs

/-- The elements of a ROM entry in the order played, false for a dot and true for a dash (40_alphabet.md R104). -/
def playOrder (e : BitVec 8) : List Bool :=
  (List.range (entrySlen e).toNat).map (fun i => (entryPat e).getLsbD i)

/-- The addresses from the cursor to the buffer's end hold exactly the bytes `bs`. -/
def Remaining (s : State) (bs : List Byte) : Prop :=
  s.cur.toNat + bs.length = s.len.toNat ∧
    ∀ i b, bs[i]? = some b → bufLookup s.buf (s.cur.toNat + i) = some b

end Sys2Proof.Machine
end

