-- ==== Sys2Proof/Certificates/Slice0/Obligations.lean ====
section
/-! DEFINITION. The statements about the MCE. Each docstring names the rule or the section of spec/ it formalises. -/

open Sys2Proof Sys2Proof.Machine

/-! ### Encoding -/

/-- 30_encoding.md section 1 and 2: no bit of a legal word is dropped, in either direction. -/
def Obligations.DecodeAndEncodeAgree : Prop :=
  (∀ i, decode (encode i) = .ok i) ∧ (∀ w i, decode w = .ok i → encode i = w)

/-- 30_encoding.md R86, R87 and 60_exceptions.md R185, in the check order of 30_encoding.md section 2, over the bits of the word read as a number: the checks in
their order, and the command each remaining word names. -/
def Obligations.FirstFailingCheckNamesTheError : Prop :=
  ∀ (depth : Nat) (w : Word),
    let op  := w.toNat / 2 ^ 28
    let rsv := w.toNat / 2 ^ 20 % 2 ^ 8
    let a   := w.toNat / 2 ^ 8 % 2 ^ 12
    let A : Addr := BitVec.ofNat 12 a
    let D : Byte := BitVec.ofNat 8 w.toNat
    (6 ≤ op → checkedDecode depth w = .error .illegalOp) ∧
    (op ≤ 5 → rsv ≠ 0 → checkedDecode depth w = .error .rsvNonzero) ∧
    (op = 1 → rsv = 0 → depth ≤ a → checkedDecode depth w = .error .addrRange) ∧
    (op = 2 → rsv = 0 → depth < a → checkedDecode depth w = .error .lenRange) ∧
    (op = 0 → rsv = 0 → checkedDecode depth w = .ok (.nop A D)) ∧
    (op = 1 → rsv = 0 → a < depth → checkedDecode depth w = .ok (.wrbuf A D)) ∧
    (op = 2 → rsv = 0 → a ≤ depth → checkedDecode depth w = .ok (.load A D)) ∧
    (op = 3 → rsv = 0 → checkedDecode depth w = .ok (.peek A D)) ∧
    (op = 4 → rsv = 0 → checkedDecode depth w = .ok (.consume A D)) ∧
    (op = 5 → rsv = 0 → checkedDecode depth w = .ok (.gap A D))

/-- 30_encoding.md section 4: words written out there, and spec/opcode_table.json's rows with operand bits zero. -/
def Obligations.SpecWordsDecode : Prop :=
  decodeTableWord 32 0x00000000 = some (.nop 0 0) ∧
  decodeTableWord 32 0x10000041 = some (.wrbuf 0 0x41) ∧
  decodeTableWord 32 0x10003F7A = some (.wrbuf 63 0x7A) ∧
  decodeTableWord 32 0x20000300 = some (.load 3 0) ∧
  decodeTableWord 32 0x30000000 = some (.peek 0 0) ∧
  decodeTableWord 32 0x40000000 = some (.consume 0 0) ∧
  decodeTableWord 32 0x50000000 = some (.gap 0 0) ∧
  decodeTableWord 32 0x70000000 = none ∧
  decodeTableWord 32 0x40100000 = none

/-- 30_encoding.md section 2, on fields a command does not use; for a LOAD, where its length is legal (an illegal one
records its whole word, 60_exceptions.md section 1; log 9). -/
def Obligations.UnusedFieldsDoNotMatter : Prop :=
  ∀ (a : Addr) (d : Byte) (s : State),
    exec (.nop a d) s = exec (.nop 0 0) s ∧ exec (.peek a d) s = exec (.peek 0 0) s ∧
    exec (.consume a d) s = exec (.consume 0 0) s ∧ exec (.gap a d) s = exec (.gap 0 0) s ∧
    (a.toNat ≤ s.cfg.bufDepth → exec (.load a d) s = exec (.load a 0) s)

/-! ### Reset -/

/-- 70_reset_and_hazards.md R210, with the outputs of 10_state.md section 7. The parameters, the coming port samples and
the draw counter are not registers of the block. -/
def Obligations.ResetEdgeGivesResetState : Prop :=
  ∀ s, (sampled s).rst = true →
    step s = .next
      { cfg := s.cfg, st := .idle, tmr := 0, pat := 0, slen := 0, idx := 0, cur := 0, len := 0, buf := [], rsp := 0,
        lastAct := .none, errCode := .none, errWord := 0, inputs := s.inputs.tail, draws := s.draws + 1 } ∧
    ∀ t, step s = .next t →
      (∀ a, written t a = false) ∧
      outputs t =
        { cmdReady := true, toneOut := false, status := 0, cursor := 0, length := 0, rsp := 0, errWord := 0 }

/-- 70_reset_and_hazards.md R212: held reset keeps the reset state, every register and every written bit, and the reset
outputs, and accepts nothing; the first edge with `rst = 0` can accept. The port samples and the draw counter go on. -/
def Obligations.HeldResetAcceptsNothing : Prop :=
  ∀ s t, (sampled s).rst = true → step s = .next t →
    ((sampled t).rst = true → acceptedCommand t = none ∧
      ∃ u, step t = .next u ∧ u = { t with inputs := t.inputs.tail, draws := t.draws + 1 } ∧ outputs u = outputs t) ∧
    t = { State.reset with cfg := s.cfg, inputs := s.inputs.tail, draws := s.draws + 1 } ∧
    outputs t = outputs State.reset ∧ cmdReady t = true ∧
    ((sampled t).rst = false → (sampled t).cmdValid = true → ∀ i, decode (sampled t).cmd = .ok i →
      step t = exec i (tick t))

/-! ### The invariant -/

/-- The invariant holds at reset (10_state.md section 7). Its parameters are the model's choice of log 1. -/
def Obligations.ResetMeetsTheInvariant : Prop := Invariant State.reset

/-- Every edge keeps the invariant: the cursor in the buffer, the buffer canonical and inside `BUF_DEPTH`, the timer below
its segment, `pat` and `slen` a ROM entry, `idx` an element of it, the error record consistent. -/
def Obligations.EveryStepKeepsTheInvariant : Prop :=
  ∀ s t, Invariant s → step s = .next t → Invariant t

/-- 10_state.md R33. -/
def Obligations.CursorNeverPassesTheEnd : Prop :=
  (∀ s t, (sampled s).rst = true → s.cfg.bufDepth ≤ 4095 → step s = .next t →
    t.cur = 0 ∧ t.len = 0 ∧ CursorInBuffer t) ∧
  ∀ s t, CursorInBuffer s → step s = .next t →
    CursorInBuffer t ∧
    (t.cur ≠ s.cur → t.cur = 0 ∨ (s.cur.toNat < s.len.toNat ∧ t.cur.toNat = s.cur.toNat + 1)) ∧
    (t.len ≠ s.len → t.len.toNat ≤ t.cfg.bufDepth ∧ t.cur = 0)

/-- 42_playback.md section 2, on arithmetic: the two increments of the machine do not wrap, and the timer fits `TMR_W`
bits. -/
def Obligations.NoIncrementWraps : Prop :=
  ∀ s t, Invariant s → step s = .next t →
    (∀ a d, acceptedCommand s = some (.consume a d) → t.cur ≠ s.cur → t.cur.toNat = s.cur.toNat + 1) ∧
    ((sampled s).rst = false → s.st = .egap → s.tmr = 0 → t.idx.toNat = s.idx.toNat + 1 ∧ t.idx.toNat ≤ 4) ∧
    t.tmr < 2 ^ t.cfg.tmrW

/-- 00_scope.md section 3: `TMR_W` is the least width that holds every timer load. -/
def Obligations.TimerWidthIsLeast : Prop :=
  ∀ c : Config, c.Valid →
    7 * c.unitCycles - 1 < 2 ^ c.tmrW ∧ ∀ n, 7 * c.unitCycles - 1 < 2 ^ n → c.tmrW ≤ n

/-- 10_state.md R51. -/
def Obligations.ParametersNeverChange : Prop :=
  ∀ s t, step s = .next t → t.cfg = s.cfg ∧ t.cfg.unitCycles = s.cfg.unitCycles ∧ t.cfg.bufDepth = s.cfg.bufDepth

/-! ### The step -/

/-- 41_buffer_commands.md section 1: an accepted word that decodes runs as its command, in the state the edge has
advanced to. In IDLE that is the state itself; in a finishing cycle it is the state with the operation ended. `tick`
takes the edge's port sample and draw away. -/
def Obligations.StepRunsTheDecodedCommand : Prop :=
  ∀ s i, (sampled s).rst = false → (sampled s).cmdValid = true → cmdReady s = true →
    decode (sampled s).cmd = .ok i →
    step s = exec i { s with st := .idle, inputs := s.inputs.tail, draws := s.draws + 1 }

/-- 60_exceptions.md R186 and 42_playback.md R145. -/
def Obligations.ResetThenAdvanceThenCommand : Prop :=
  ∀ s,
    ((sampled s).rst = true → step s = .next (resetState (tick s))) ∧
    ((sampled s).rst = false → accepts (sampled s) s = false → step s = .next (atAccept s)) ∧
    (accepts (sampled s) s = true →
      step s = execWord (sampled s).cmd (atAccept s) ∧ (atAccept s).st = .idle ∧
      ((s.st = .idle ∧ atAccept s = tick s) ∨ (finishing s = true ∧ atAccept s = advance (tick s))))

/-- 41_buffer_commands.md section 1: a word that is not accepted leaves no trace. Two offers that the edge does not
accept, alike in `rst`, give the same step. -/
def Obligations.UnacceptedOffersLeaveNoTrace : Prop :=
  ∀ (s : State) (p q : Inputs) (rest : List Inputs), p.rst = q.rst →
    accepts p s = false → accepts q s = false →
    step { s with inputs := p :: rest } = step { s with inputs := q :: rest }

/-- 42_playback.md R143: the advance, case by case, as the step of a running operation that accepts nothing. -/
def Obligations.AdvanceFollowsTheSegmentOrder : Prop :=
  ∀ s, s.st ≠ .idle → (sampled s).rst = false → accepts (sampled s) s = false →
    let u := s.cfg.unitCycles
    let s' := tick s
    (s.tmr ≠ 0 → step s = .next { s' with tmr := s.tmr - 1 }) ∧
    (s.tmr = 0 → s.st = .mark → s.idx.toNat + 1 < s.slen.toNat →
      step s = .next { s' with st := .egap, tmr := u - 1 }) ∧
    (s.tmr = 0 → s.st = .mark → s.slen.toNat ≤ s.idx.toNat + 1 → step s = .next { s' with st := .idle }) ∧
    (s.tmr = 0 → s.st = .egap →
      step s = .next
        { s' with idx := s.idx + 1, st := .mark,
                  tmr := (if s.pat.getLsbD (s.idx.toNat + 1) then 3 * u else u) - 1 }) ∧
    (s.tmr = 0 → s.st = .word → step s = .next { s' with st := .idle }) ∧
    (s.tmr = 0 → s.st = .cgap → step s = .next { s' with st := .idle })

/-- 42_playback.md R144. -/
def Obligations.FinishingIsTheLastCycle : Prop :=
  ∀ s,
    (finishing s = true ↔ s.st ≠ .idle ∧ s.tmr = 0 ∧
      (s.st = .word ∨ s.st = .cgap ∨ (s.st = .mark ∧ s.slen.toNat ≤ s.idx.toNat + 1))) ∧
    (s.st ≠ .idle → (finishing s = true ↔ (advance s).st = .idle)) ∧
    (finishing s = true → cmdReady s = true)

/-- 42_playback.md R151: until its finishing cycle an operation accepts no command and goes on; reset alone stops it. -/
def Obligations.OnlyResetStopsAnOperation : Prop :=
  ∀ s, s.st ≠ .idle → finishing s = false →
    cmdReady s = false ∧ accepts (sampled s) s = false ∧
    ((sampled s).rst = false → ∃ t, step s = .next t ∧ t.st ≠ .idle) ∧
    ((sampled s).rst = true → ∃ t, step s = .next t ∧ t.st = .idle ∧ toneOut t = false)

/-! ### What the commands do -/

/-- 41_buffer_commands.md section 2: NOP completes and changes nothing. -/
def Obligations.NopChangesNothing : Prop :=
  ∀ a d s, exec (.nop a d) s = .next s

/-- 41_buffer_commands.md section 3 and 20_memory.md section 1: an in-range WRBUF completes; the byte at its address is
its data byte, every other byte and every register is as before. -/
def Obligations.WrbufStoresExactlyItsByte : Prop :=
  ∀ (a : Addr) (d : Byte) (s : State), a.toNat < s.cfg.bufDepth →
    ∃ t, exec (.wrbuf a d) s = .next t ∧
      bufLookup t.buf (operandA a) = some d ∧ written t (operandA a) = true ∧
      (∀ x, x ≠ operandA a → bufLookup t.buf x = bufLookup s.buf x) ∧
      { t with buf := s.buf } = s ∧
      (¬ (operandA a = s.cur.toNat ∧ s.cur.toNat < s.len.toNat) → status t = status s)

/-- 41_buffer_commands.md section 4: an in-range LOAD completes with the new length and the cursor at 0, and changes
nothing else. -/
def Obligations.LoadStartsABuffer : Prop :=
  ∀ (a : Addr) (d : Byte) (s : State), a.toNat ≤ s.cfg.bufDepth →
    exec (.load a d) s = .next { s with len := a, cur := 0 }

/-- 60_exceptions.md section 1: a WRBUF or LOAD out of range completes as an error record, with no write, no new length
and no cursor move. The word a LOAD records keeps its ignored byte D: the reading of log 9. -/
def Obligations.RangeErrorsRecordTheWord : Prop :=
  ∀ (a : Addr) (d : Byte) (s : State),
    (s.cfg.bufDepth ≤ a.toNat →
      exec (.wrbuf a d) s =
        .next (if s.errCode = .none then { s with errCode := .addrRange, errWord := encode (.wrbuf a d) } else s)) ∧
    (s.cfg.bufDepth < a.toNat →
      exec (.load a d) s =
        .next (if s.errCode = .none then { s with errCode := .lenRange, errWord := encode (.load a d) } else s))

/-- 41_buffer_commands.md section 5, by the ranges of the byte at the cursor: PEEK completes with `rsp` the upcased
character and its valid bit, or 0; over an unwritten byte it is the model-only fault. Nothing else changes. -/
def Obligations.PeekSamplesTheNextCharacter : Prop :=
  ∀ (a : Addr) (d : Byte) (s : State),
    (s.len.toNat ≤ s.cur.toNat → exec (.peek a d) s = .next { s with rsp := 0 }) ∧
    (s.cur.toNat < s.len.toNat → ∀ b, bufLookup s.buf s.cur.toNat = some b →
      ((0x41 ≤ b.toNat ∧ b.toNat ≤ 0x5A) ∨ (0x30 ≤ b.toNat ∧ b.toNat ≤ 0x39) ∨ b.toNat = 0x20 →
        exec (.peek a d) s = .next { s with rsp := BitVec.ofNat 9 (0x100 + b.toNat) }) ∧
      (0x61 ≤ b.toNat → b.toNat ≤ 0x7A →
        exec (.peek a d) s = .next { s with rsp := BitVec.ofNat 9 (0x100 + (b.toNat - 0x20)) }) ∧
      (classify b = .unres → exec (.peek a d) s = .next { s with rsp := 0 })) ∧
    (s.cur.toNat < s.len.toNat → written s s.cur.toNat = false →
      exec (.peek a d) s = .fault (.unwrittenRead s.cur.toNat))

/-- 20_memory.md section 2: a second PEEK gives what the first gave. -/
def Obligations.PeekIsIdempotent : Prop :=
  ∀ a d a' d' s t, exec (.peek a d) s = .next t → exec (.peek a' d') t = .next t

/-- 42_playback.md section 3, the four cases by the byte at the cursor: CONSUME completes in each, with exactly the
registers the case writes; over an unwritten byte it is the model-only fault. -/
def Obligations.ConsumeTakesItsFourCases : Prop :=
  ∀ (a : Addr) (d : Byte) (s : State),
    let u := s.cfg.unitCycles
    let starts (e : BitVec 8) : State :=
      { s with cur := s.cur + 1, pat := e.extractLsb' 0 5, slen := e.extractLsb' 5 3, idx := 0, st := .mark,
               tmr := (if e.getLsbD 0 then 3 * u else u) - 1, lastAct := .played }
    (s.len.toNat ≤ s.cur.toNat → exec (.consume a d) s = .next { s with lastAct := .exhausted }) ∧
    (s.cur.toNat < s.len.toNat → ∀ b, bufLookup s.buf s.cur.toNat = some b →
      (b.toNat = 0x20 → exec (.consume a d) s =
        .next { s with cur := s.cur + 1, st := .word, tmr := 7 * u - 1, lastAct := .silence }) ∧
      (∀ i : Fin 26, b.toNat = 0x41 + i.val ∨ b.toNat = 0x61 + i.val →
        exec (.consume a d) s = .next (starts (romL i))) ∧
      (∀ i : Fin 10, b.toNat = 0x30 + i.val → exec (.consume a d) s = .next (starts (romD i))) ∧
      (classify b = .unres → exec (.consume a d) s = .next { s with lastAct := .unresolvable })) ∧
    (s.cur.toNat < s.len.toNat → written s s.cur.toNat = false →
      exec (.consume a d) s = .fault (.unwrittenRead s.cur.toNat))

/-- 42_playback.md R156. -/
def Obligations.ConsumeOfExhaustedBufferOnlyRecords : Prop :=
  ∀ a d s, s.len.toNat ≤ s.cur.toNat →
    exec (.consume a d) s = .next { s with lastAct := .exhausted } ∧
    ∀ t, exec (.consume a d) s = .next t → t.errCode = s.errCode ∧ t.errWord = s.errWord

/-- 42_playback.md section 4: GAP completes, starting three UNITs of CGAP, and changes nothing else. -/
def Obligations.GapStartsThreeUnits : Prop :=
  ∀ a d s, exec (.gap a d) s = .next { s with st := .cgap, tmr := 3 * s.cfg.unitCycles - 1 }

/-- 41_buffer_commands.md R128. -/
def Obligations.PeekAndConsumeAgree : Prop :=
  ∀ a d a' d' s, s.len.toNat ≤ s.cur.toNat ∨ written s s.cur.toNat = true →
    ∃ t u, exec (.peek a d) s = .next t ∧ exec (.consume a' d') s = .next u ∧
      (t.rsp.getLsbD 8 = true ↔ u.cur = s.cur + 1) ∧
      (t.rsp.getLsbD 8 = true ↔ u.lastAct = .silence ∨ u.lastAct = .played) ∧
      (t.rsp.getLsbD 8 = peekValid s)

/-- 20_memory.md section 1 and 10_state.md sections 1 and 3: no command but WRBUF stores; every byte reads as before. -/
def Obligations.OnlyWrbufStores : Prop :=
  ∀ i s t, (∀ a d, i ≠ .wrbuf a d) → exec i s = .next t → ∀ x, bufLookup t.buf x = bufLookup s.buf x

/-- 10_state.md section 1, the column "written by" of the register table: a register that an edge changes is written by
one of the agents the table names. -/
def Obligations.RegistersHaveOnlyTheirWriters : Prop :=
  ∀ s t, step s = .next t →
    let rst := (sampled s).rst = true
    let consume := ∃ a d, acceptedCommand s = some (.consume a d)
    let gap := ∃ a d, acceptedCommand s = some (.gap a d)
    let load := ∃ a d, acceptedCommand s = some (.load a d)
    let peek := ∃ a d, acceptedCommand s = some (.peek a d)
    let wrbuf := ∃ a d, acceptedCommand s = some (.wrbuf a d)
    let running := s.st ≠ .idle
    (t.st ≠ s.st → consume ∨ gap ∨ running ∨ rst) ∧
    (t.tmr ≠ s.tmr → consume ∨ gap ∨ running ∨ rst) ∧
    (t.pat ≠ s.pat → consume ∨ rst) ∧
    (t.slen ≠ s.slen → consume ∨ rst) ∧
    (t.idx ≠ s.idx → consume ∨ running ∨ rst) ∧
    (t.cur ≠ s.cur → load ∨ consume ∨ rst) ∧
    (t.len ≠ s.len → load ∨ rst) ∧
    (t.buf ≠ s.buf → wrbuf ∨ rst) ∧
    (t.rsp ≠ s.rsp → peek ∨ rst) ∧
    (t.lastAct ≠ s.lastAct → consume ∨ rst) ∧
    (t.errCode ≠ s.errCode → acceptsError s ∨ rst) ∧
    (t.errWord ≠ s.errWord → acceptsError s ∨ rst)

/-! ### Errors -/

/-- 60_exceptions.md section 1: an accepted word that fails a check changes `err_code` and `err_word`, and only when no
error is recorded; the operation that its edge ends is ended, and `st` stays IDLE. The code is written out for each
kind of error, over the fields of the word read as numbers; the last clause says that the four are all. The word a
LOAD records keeps its ignored byte D: the reading of log 9. -/
def Obligations.RejectedWordsOnlyRecord : Prop :=
  ∀ s, accepts (sampled s) s = true →
    let w   := (sampled s).cmd
    let op  := w.toNat / 2 ^ 28
    let rsv := w.toNat / 2 ^ 20 % 2 ^ 8
    let a   := w.toNat / 2 ^ 8 % 2 ^ 12
    let records (c : ErrCode) : Prop :=
      ∃ t, step s = .next t ∧ t.st = .idle ∧
        (s.errCode = .none →
          t = { s with st := .idle, inputs := s.inputs.tail, draws := s.draws + 1, errCode := c, errWord := w }) ∧
        (s.errCode ≠ .none →
          t = { s with st := .idle, inputs := s.inputs.tail, draws := s.draws + 1 })
    (6 ≤ op → records .illegalOp) ∧
    (op ≤ 5 → rsv ≠ 0 → records .rsvNonzero) ∧
    (op = 1 → rsv = 0 → s.cfg.bufDepth ≤ a → records .addrRange) ∧
    (op = 2 → rsv = 0 → s.cfg.bufDepth < a → records .lenRange) ∧
    (∀ e, checkedDecode s.cfg.bufDepth w = .error e → ∃ c, c ≠ .none ∧ records c)

/-- 60_exceptions.md R183. -/
def Obligations.FirstErrorIsKeptUntilReset : Prop :=
  ∀ s t, s.errCode ≠ .none → step s = .next t →
    ((sampled s).rst = false → t.errCode = s.errCode ∧ t.errWord = s.errWord) ∧
    ((sampled s).rst = true → t.errCode = .none ∧ t.errWord = 0)

/-- 60_exceptions.md R184: a recorded error changes neither readiness nor what a legal command does. -/
def Obligations.ErrorsNeverBlock : Prop :=
  ∀ (s : State) (c : ErrCode) (w : Word),
    cmdReady { s with errCode := c, errWord := w } = cmdReady s ∧
    ∀ i, Instr.wellFormed s.cfg.bufDepth i = true →
      exec i { s with errCode := c, errWord := w } =
        match exec i s with
        | .next t    => .next { t with errCode := c, errWord := w }
        | .fault f   => .fault f
        | .refused r => .refused r

/-- 60_exceptions.md section 7: the one fault of the model, exactly where it is raised; every other edge has a next
state. -/
def Obligations.OnlyUnwrittenReadsStop : Prop :=
  ∀ s,
    (∀ f, step s = .fault f ↔
      f = .unwrittenRead s.cur.toNat ∧ s.cur.toNat < s.len.toNat ∧ written s s.cur.toNat = false ∧
        ∃ a d, acceptedCommand s = some (.peek a d) ∨ acceptedCommand s = some (.consume a d)) ∧
    ∀ r, step s ≠ .refused r

/-! ### Timing -/

/-- 42_playback.md section 2: a segment whose timer reads `k - 1` holds its state for exactly `k` cycles while `rst`
stays 0, counting down to 0, and the edge after them leaves it. -/
def Obligations.SegmentLastsItsCount : Prop :=
  ∀ s k, s.st ≠ .idle → s.tmr + 1 = k → NoReset (k - 1) s →
    (∀ j, j < k → ∃ t, core.run j s = .next t ∧ t.st = s.st ∧ t.idx = s.idx ∧ t.tmr = k - 1 - j) ∧
    ∀ t, core.run (k - 1) s = .next t → (sampled t).rst = false → accepts (sampled t) t = false →
      ∃ t', step t = .next t' ∧ t'.st ≠ s.st

/-- 42_playback.md R159: the tone of a character, from the accept edge of its CONSUME, and the rule's two examples, S
and O. -/
def Obligations.CharacterToneIsItsPattern : Prop :=
  (∀ u,
    let on (k : Nat) := List.replicate (k * u) true
    let off (k : Nat) := List.replicate (k * u) false
    resolve 0x53 = .signal (romL 18) ∧ characterTrace u (romL 18) = on 1 ++ off 1 ++ on 1 ++ off 1 ++ on 1 ∧
    resolve 0x4F = .signal (romL 14) ∧ characterTrace u (romL 14) = on 3 ++ off 1 ++ on 3 ++ off 1 ++ on 3) ∧
  ∀ s a d b e, s.cfg.Valid → acceptedCommand s = some (.consume a d) → s.cur.toNat < s.len.toNat →
    bufLookup s.buf s.cur.toNat = some b → resolve b = .signal e →
    let u := s.cfg.unitCycles
    let n := operationUnits e * u
    ∃ t, step s = .next t ∧
      (NoReset (n - 1) t →
        observe toneOut n t = characterTrace u e ∧
        observe cmdReady n t = List.replicate (n - 1) false ++ [true])

/-- 42_playback.md R150: how long each operation keeps `st` from IDLE, and how long its tone is on. -/
def Obligations.OperationLengths : Prop :=
  ∀ s a d, s.cfg.Valid →
    let u := s.cfg.unitCycles
    (acceptedCommand s = some (.consume a d) → s.cur.toNat < s.len.toNat →
      ∀ b, bufLookup s.buf s.cur.toNat = some b →
        (∀ e, resolve b = .signal e → ∃ t, step s = .next t ∧
          (NoReset (operationUnits e * u - 1) t →
            observe busy (operationUnits e * u) t = List.replicate (operationUnits e * u) true ∧
            (observe toneOut (operationUnits e * u) t).count true = toneUnits e * u ∧
            (observe finishing (operationUnits e * u) t) =
              List.replicate (operationUnits e * u - 1) false ++ [true])) ∧
        (resolve b = .silence → ∃ t, step s = .next t ∧
          (NoReset (7 * u - 1) t →
            observe busy (7 * u) t = List.replicate (7 * u) true ∧
            observe finishing (7 * u) t = List.replicate (7 * u - 1) false ++ [true]))) ∧
    (acceptedCommand s = some (.gap a d) → ∃ t, step s = .next t ∧
      (NoReset (3 * u - 1) t →
        observe busy (3 * u) t = List.replicate (3 * u) true ∧
        observe finishing (3 * u) t = List.replicate (3 * u - 1) false ++ [true])) ∧
    operationUnits (romL 0) = 5

/-- 42_playback.md R157. -/
def Obligations.SpaceIsSevenUnitsOfSilence : Prop :=
  ∀ s a d, s.cfg.Valid → acceptedCommand s = some (.consume a d) → s.cur.toNat < s.len.toNat →
    bufLookup s.buf s.cur.toNat = some 0x20 →
    let n := 7 * s.cfg.unitCycles
    ∃ t, step s = .next t ∧ t.cur = s.cur + 1 ∧ t.lastAct = .silence ∧ charGap t = none ∧
      (NoReset (n - 1) t →
        observe toneOut n t = List.replicate n false ∧
        observe cmdReady n t = List.replicate (n - 1) false ++ [true])

/-- 42_playback.md section 4: the silence a GAP makes. -/
def Obligations.GapIsThreeUnitsOfSilence : Prop :=
  ∀ s a d, s.cfg.Valid → acceptedCommand s = some (.gap a d) →
    let n := 3 * s.cfg.unitCycles
    ∃ t, step s = .next t ∧ t.cur = s.cur ∧ t.lastAct = s.lastAct ∧
      (NoReset (n - 1) t →
        observe toneOut n t = List.replicate n false ∧
        observe cmdReady n t = List.replicate (n - 1) false ++ [true])

/-- 70_reset_and_hazards.md section 3: a letter or digit accepted in the finishing cycle of a character leaves no silence
between the two marks. -/
def Obligations.MissingGapMergesTones : Prop :=
  ∀ s a d b e, s.st = .mark → finishing s = true → acceptedCommand s = some (.consume a d) →
    s.cur.toNat < s.len.toNat → bufLookup s.buf s.cur.toNat = some b → resolve b = .signal e →
    toneOut s = true ∧ ∃ t, step s = .next t ∧ toneOut t = true ∧ t.errCode = s.errCode

/-- 70_reset_and_hazards.md section 3. From the accept edge of a CONSUME that plays a character or a space, in every cycle
in which the operation runs, the cursor counts the playing byte as consumed and the peek fields of `status` describe
the byte after it (nothing at the buffer's end; log 6 where that byte was never written). And while any operation
runs, nothing that `status` shows of the buffer and no other register but `st`, `tmr` and `idx` changes. -/
def Obligations.StatusShowsTheNextByteWhilePlaying : Prop :=
  (∀ s a d b, acceptedCommand s = some (.consume a d) → s.cur.toNat < s.len.toNat →
    bufLookup s.buf s.cur.toNat = some b → resolve b ≠ .unresolvable →
    ∃ t, step s = .next t ∧
      ∀ n, NoReset n t → (∀ r ∈ observe cmdReady n t, r = false) →
        ∃ u, core.run n t = .next u ∧ busy u = true ∧ u.cur.toNat = s.cur.toNat + 1 ∧
          (s.cur.toNat + 1 = s.len.toNat → (status u).getLsbD 2 = false ∧ (status u).extractLsb' 8 8 = 0) ∧
          (s.cur.toNat + 1 < s.len.toNat → ∀ c, bufLookup s.buf (s.cur.toNat + 1) = some c →
            ((status u).getLsbD 2 = true ↔ classify c ≠ .unres) ∧
            (status u).extractLsb' 8 8 = if classify c = .unres then 0 else upcase c)) ∧
  ∀ n s, NoReset n s → (∀ r ∈ observe cmdReady n s, r = false) →
    ∃ t, core.run n s = .next t ∧ t.cur = s.cur ∧ t.len = s.len ∧ t.buf = s.buf ∧ t.rsp = s.rsp ∧
      t.pat = s.pat ∧ t.slen = s.slen ∧ t.lastAct = s.lastAct ∧ t.errCode = s.errCode ∧ t.errWord = s.errWord ∧
      (s.len.toNat ≤ s.cur.toNat ∨ written s s.cur.toNat = true → peekFields t = peekFields s)

/-- 42_playback.md section 3, on the halt: at an unresolvable byte the cursor stays, CONSUME starts nothing and PEEK shows
nothing, until a reset, a LOAD, or a WRBUF to that very byte (log 15). -/
def Obligations.UnresolvableByteHalts : Prop :=
  ∀ s t b, s.cur.toNat < s.len.toNat → bufLookup s.buf s.cur.toNat = some b → resolve b = .unresolvable →
    (sampled s).rst = false → (∀ a d, acceptedCommand s ≠ some (.load a d)) →
    (∀ a d, acceptedCommand s = some (.wrbuf a d) → a ≠ s.cur) →
    step s = .next t →
    t.cur = s.cur ∧ t.len = s.len ∧ bufLookup t.buf t.cur.toNat = some b ∧
    (∀ a d, acceptedCommand s = some (.consume a d) → t.st = .idle ∧ t.lastAct = .unresolvable) ∧
    (∀ a d, acceptedCommand s = some (.peek a d) → t.rsp = 0) ∧
    peekValid t = false

/-! ### Status -/

/-- 10_state.md R45. -/
def Obligations.StatusReservedBitsAreZero : Prop :=
  ∀ s, (status s).getLsbD 7 = false ∧ (status s).getLsbD 19 = false ∧ (status s).extractLsb' 24 8 = 0

/-- 10_state.md sections 1 and 5: every field of `status` in its place, with the codes of the tables written out. The peek fields are those of `peek` where the byte at the
cursor is written or the buffer exhausted; elsewhere they are free (log 6) and nothing is said of them. -/
def Obligations.StatusFieldsAreInPlace : Prop :=
  ∀ s,
    ((status s).getLsbD 0 = true ↔ s.st ≠ .idle) ∧
    ((status s).getLsbD 1 = true ↔ s.st = .mark) ∧
    ((status s).getLsbD 3 = true ↔ s.errCode ≠ .none) ∧
    ((status s).extractLsb' 4 3).toNat =
      (match s.lastAct with | .none => 0 | .exhausted => 1 | .unresolvable => 2 | .silence => 3 | .played => 4) ∧
    ((status s).extractLsb' 16 3).toNat =
      (match s.st with | .idle => 0 | .mark => 1 | .egap => 2 | .word => 3 | .cgap => 4) ∧
    ((status s).extractLsb' 20 4).toNat =
      (match s.errCode with | .none => 0 | .illegalOp => 1 | .rsvNonzero => 2 | .addrRange => 3 | .lenRange => 4) ∧
    (s.len.toNat ≤ s.cur.toNat → (status s).getLsbD 2 = false ∧ (status s).extractLsb' 8 8 = 0) ∧
    (s.cur.toNat < s.len.toNat → ∀ b, bufLookup s.buf s.cur.toNat = some b →
      ((status s).getLsbD 2 = true ↔ classify b ≠ .unres) ∧
      (status s).extractLsb' 8 8 = if classify b = .unres then 0 else upcase b)

/-- 10_state.md section 5: BUSY and `cmd_ready` are both 1 in a finishing cycle, and opposite in every other. -/
def Obligations.BusyAndReadyMeetOnlyWhenFinishing : Prop :=
  ∀ s, (busy s = true ∧ cmdReady s = true ↔ finishing s = true) ∧ (finishing s = false → cmdReady s = !busy s)

/-! ### The alphabet -/

/-- 40_alphabet.md R108, with the upcased code of 40_alphabet.md section 3. -/
def Obligations.LettersAreCaseInsensitive : Prop :=
  ∀ i : Fin 26,
    resolve (BitVec.ofNat 8 (0x41 + i.val)) = .signal (romL i) ∧
    resolve (BitVec.ofNat 8 (0x61 + i.val)) = .signal (romL i) ∧
    upcase (BitVec.ofNat 8 (0x61 + i.val)) = BitVec.ofNat 8 (0x41 + i.val)

/-- 40_alphabet.md section 1: the class of every byte by its range, and the counts. -/
def Obligations.EveryByteHasItsClass : Prop :=
  (∀ b : Byte,
    (classify b = .space ↔ b.toNat = 0x20) ∧
    (classify b = .unres ↔
      b.toNat ≤ 0x1F ∨ (0x21 ≤ b.toNat ∧ b.toNat ≤ 0x2F) ∨ (0x3A ≤ b.toNat ∧ b.toNat ≤ 0x40) ∨
      (0x5B ≤ b.toNat ∧ b.toNat ≤ 0x60) ∨ 0x7B ≤ b.toNat) ∧
    (∀ i, classify b = .digit i ↔ b.toNat = 0x30 + i.val) ∧
    (∀ i, classify b = .letter i ↔ b.toNat = 0x41 + i.val ∨ b.toNat = 0x61 + i.val)) ∧
  ((List.range 256).filter (fun n => classify (BitVec.ofNat 8 n) ≠ .unres)).length = 63

/-- 40_alphabet.md R109. -/
def Obligations.RomEntriesAreWellShaped : Prop :=
  (∀ e, IsEntry e →
    1 ≤ (entrySlen e).toNat ∧ (entrySlen e).toNat ≤ 5 ∧
    (∀ i, (entrySlen e).toNat ≤ i → (entryPat e).getLsbD i = false) ∧ operationUnits e ≤ 19) ∧
  (∀ i, (entrySlen (romL i)).toNat ≤ 4) ∧ (∀ i, (entrySlen (romD i)).toNat = 5) ∧
  (∀ i j, romL i = romL j → i = j) ∧ (∀ i j, romD i = romD j → i = j) ∧ (∀ i j, romL i ≠ romD j) ∧
  (∀ e, IsEntry e → (operationUnits e = 1 ↔ e = romL 4)) ∧
  (∀ e, IsEntry e → (operationUnits e = 3 ↔ e = romL 8 ∨ e = romL 19)) ∧
  (∀ e, IsEntry e → operationUnits e ≠ 2) ∧
  (∀ e, IsEntry e → (operationUnits e = 19 ↔ e = romD 0))

/-- 40_alphabet.md section 3: the elements of all 36 entries in play order, and the entries of A, 0 and 5. Those three
patterns are the document's own; the spec takes the others from the International Morse Code (log 13). -/
def Obligations.RomHoldsTheMorseCode : Prop :=
  let o := false -- a dot
  let i := true  -- a dash
  (List.finRange 26).map (fun k => playOrder (romL k)) =
    [[o, i], [i, o, o, o], [i, o, i, o], [i, o, o], [o], [o, o, i, o], [i, i, o], [o, o, o, o], [o, o],
     [o, i, i, i], [i, o, i], [o, i, o, o], [i, i], [i, o], [i, i, i], [o, i, i, o], [i, i, o, i], [o, i, o],
     [o, o, o], [i], [o, o, i], [o, o, o, i], [o, i, i], [i, o, o, i], [i, o, i, i], [i, i, o, o]] ∧
  (List.finRange 10).map (fun k => playOrder (romD k)) =
    [[i, i, i, i, i], [o, i, i, i, i], [o, o, i, i, i], [o, o, o, i, i], [o, o, o, o, i],
     [o, o, o, o, o], [i, o, o, o, o], [i, i, o, o, o], [i, i, i, o, o], [i, i, i, i, o]] ∧
  resolve 0x41 = .signal (romL 0) ∧ resolve 0x30 = .signal (romD 0) ∧ resolve 0x35 = .signal (romD 5)

/-! ### Whole runs -/

/-- 30_encoding.md section 4, `LDSTR`, and 70_reset_and_hazards.md section 4: run from an idle state, with any delays of
the host, its commands put a string of up to `BUF_DEPTH` bytes into the buffer, whatever the buffer held, and hand it
over with the cursor at 0; one cycle a command and one for each cycle of delay, no tone. That the run's end cycle is
not counted is the reading of log 12, and that a longer string has no expansion the model's choice of log 19. -/
def Obligations.LdstrHandsOverABuffer : Prop :=
  ∀ s bs, s.st = .idle → s.cfg.bufDepth ≤ 4095 →
    (bs.length ≤ s.cfg.bufDepth →
      ∃ is, ldstr s.cfg.bufDepth bs = some is ∧
        ∀ os, os.map HostOffer.word = is.map encode →
          let n := (os.map HostOffer.wait).sum + bs.length + 1
          ∃ t, runProgram (n + 1) os s = some (List.replicate n false, t) ∧
            t.st = .idle ∧ t.cur = 0 ∧ Remaining t bs ∧ t.errCode = s.errCode ∧ t.errWord = s.errWord ∧
            (∀ x, bs.length ≤ x → bufLookup t.buf x = bufLookup s.buf x)) ∧
    (s.cfg.bufDepth < bs.length → ldstr s.cfg.bufDepth bs = none)

/-- 41_buffer_commands.md R129, whatever the delays of the host that issues the commands. -/
def Obligations.ExactlyNConsumesExhaustTheBuffer : Prop :=
  ∀ s bs, s.cfg.Valid → s.st = .idle → s.cur = 0 → Remaining s bs → (∀ b ∈ bs, resolve b ≠ .unresolvable) →
    let c := encode (.consume 0 0)
    (∀ n os, n ≤ bs.length → os.map HostOffer.word = List.replicate n c →
      ∃ fuel tr t, runProgram fuel os s = some (tr, t) ∧ t.cur.toNat = n) ∧
    (∀ os, os.map HostOffer.word = List.replicate bs.length c ++ [encode (.peek 0 0)] →
      ∃ fuel tr t, runProgram fuel os s = some (tr, t) ∧ t.cur.toNat = bs.length ∧ t.rsp = 0) ∧
    (∀ os, os.map HostOffer.word = List.replicate (bs.length + 1) c →
      ∃ fuel tr t, runProgram fuel os s = some (tr, t) ∧ t.cur.toNat = bs.length ∧ t.lastAct = .exhausted)

/-- 42_playback.md sections 2 and 4 with 70_reset_and_hazards.md section 4: CONSUME of a letter or digit, GAP, CONSUME of a
letter or digit, with delays `i`, `j` and `k` of the host. The silence between the two characters is three UNITs where
each command is offered by the finishing cycle of the operation before it, and each cycle the host is late for one adds
one cycle (`late` counts the cycles past the finishing cycle; subtraction stops at 0). The run's first cycles, `i` of
delay and the one of the first offer, and its end are the readings of log 12. -/
def Obligations.LateOffersLengthenTheSilence : Prop :=
  ∀ s b c e g i j k, s.cfg.Valid → s.st = .idle → Remaining s [b, c] →
    resolve b = .signal e → resolve c = .signal g →
    let u := s.cfg.unitCycles
    let late (wait n : Nat) := wait - (n - 1)
    let consume := encode (.consume 0 0)
    let os : List HostOffer := [⟨i, consume⟩, ⟨j, encode (.gap 0 0)⟩, ⟨k, consume⟩]
    ∃ fuel t, runProgram fuel os s =
      some (List.replicate (i + 1) false ++ characterTrace u e ++
        List.replicate (3 * u + late j (operationUnits e * u) + late k (3 * u)) false ++ characterTrace u g, t)

/-- 60_exceptions.md section 6 with 42_playback.md sections 3 and 4: the document's host loop over a buffer plays the
Morse signal of its bytes up to the first unresolvable one, cycle for cycle, for every UNIT, whether the host issues
the GAP after the last character or not (92_eei_decisions.md D24). The loop's first cycle is the one in which its
first command is offered; the PEEK form adds one cycle before each CONSUME. Where nothing is playable the status form
ends in its first cycle. Which cycles the run counts, and which character is the last, are the readings of log 12. -/
def Obligations.HostLoopPlaysTheBuffer : Prop :=
  ∀ (f : HostForm) (lastGap : Bool) (s : State) (bs : List Byte), s.cfg.Valid → s.st = .idle → Remaining s bs →
    ∃ fuel t,
      hostLoop f lastGap fuel [] .look s =
        some (if f = .status ∧ playable bs = [] then []
          else false ::
            bufferTrace (if f = .peek then [false] else []) s.cfg.unitCycles lastGap (playable bs), t) ∧
      t.st = .idle ∧ t.len = s.len ∧ t.cur.toNat = s.cur.toNat + (playable bs).length ∧
      t.errCode = s.errCode ∧ t.errWord = s.errWord

/-- 60_exceptions.md section 6 with 93_implementation_defined.md U16: whatever the delays of the host, the host loop ends
where the prompt one ends, and its trace is the prompt one's with cycles of silence added: the prompt trace is what is
left when some cycles are taken out, and as many cycles have the tone on. The readings of log 12 are those of
HostLoopPlaysTheBuffer. -/
def Obligations.LateHostLoopOnlyAddsSilence : Prop :=
  ∀ (f : HostForm) (lastGap : Bool) (delays : List Nat) (s : State) (bs : List Byte),
    s.cfg.Valid → s.st = .idle → Remaining s bs →
    let prompt := if f = .status ∧ playable bs = [] then []
      else false :: bufferTrace (if f = .peek then [false] else []) s.cfg.unitCycles lastGap (playable bs)
    ∃ fuel tr t, hostLoop f lastGap fuel delays .look s = some (tr, t) ∧
      prompt.Sublist tr ∧ tr.count true = prompt.count true ∧
      t.st = .idle ∧ t.len = s.len ∧ t.cur.toNat = s.cur.toNat + (playable bs).length ∧
      t.errCode = s.errCode ∧ t.errWord = s.errWord

/-- 70_reset_and_hazards.md section 4: "SOS" in both forms of the host loop, with and without the final GAP; 27 UNITs to
the end of the last S in the status form, 27 UNITs and 2 cycles in the PEEK form, 5400 ms at 200 ms a UNIT. The cycles
before the first CONSUME are the reading of log 12. -/
def Obligations.SosIsTwentySevenUnits : Prop :=
  ∀ (s : State) (lastGap : Bool), s.cfg.Valid → s.st = .idle → s.cur = 0 → s.len = 3 →
    bufLookup s.buf 0 = some 0x53 → bufLookup s.buf 1 = some 0x4F → bufLookup s.buf 2 = some 0x53 →
    let u := s.cfg.unitCycles
    let on (k : Nat) := List.replicate (k * u) true
    let off (k : Nat) := List.replicate (k * u) false
    let S := on 1 ++ off 1 ++ on 1 ++ off 1 ++ on 1
    let O := on 3 ++ off 1 ++ on 3 ++ off 1 ++ on 3
    let status := S ++ off 3 ++ O ++ off 3 ++ S
    let peek := S ++ (off 3 ++ [false]) ++ O ++ (off 3 ++ [false]) ++ S
    let final := if lastGap then off 3 else []
    (∃ fuel t, hostLoop .status lastGap fuel [] .look s = some ([false] ++ status ++ final, t)) ∧
    (∃ fuel t, hostLoop .peek lastGap fuel [] .look s = some ([false, false] ++ peek ++ final, t)) ∧
    status.length = 27 * u ∧ peek.length = 27 * u + 2 ∧
    (s.cfg.unitMs = 200 → u = 200 * s.cfg.cyclesPerMs ∧ status.length = 5400 * s.cfg.cyclesPerMs)

/-- 42_playback.md section 4: a letter or digit, a space, a letter or digit: ten UNITs of silence between the marks, with
and without the final GAP. The run's first cycle is the reading of log 12. -/
def Obligations.WordSpacingIsTenUnits : Prop :=
  ∀ s lastGap b c e g, s.cfg.Valid → s.st = .idle → Remaining s [b, 0x20, c] →
    resolve b = .signal e → resolve c = .signal g →
    let u := s.cfg.unitCycles
    ∃ fuel t, hostLoop .status lastGap fuel [] .look s =
      some ([false] ++ characterTrace u e ++ List.replicate (10 * u) false ++ characterTrace u g ++
        (if lastGap then List.replicate (3 * u) false else []), t)
end

