-- ==== Sys2Proof/Laws/Alphabet.lean ====
section
/-! SUPPORT. The alphabet: what a class says of its byte, and what every ROM entry has (40_alphabet.md R103, R109). -/

namespace Sys2Proof.Machine

/-- A resolvable byte resolves to a ROM entry. -/
theorem isEntry_of_resolve {b : Byte} {e : BitVec 8} (h : resolve b = .signal e) : IsEntry e := by
  unfold resolve at h
  split at h
  · exact .inl ⟨_, (Resolution.signal.inj h).symm⟩
  · exact .inr ⟨_, (Resolution.signal.inj h).symm⟩
  · cases h
  · cases h

theorem romL_slen (i : Fin 26) : 1 ≤ (entrySlen (romL i)).toNat ∧ (entrySlen (romL i)).toNat ≤ 5 := by
  revert i; decide

theorem romD_slen (i : Fin 10) : 1 ≤ (entrySlen (romD i)).toNat ∧ (entrySlen (romD i)).toNat ≤ 5 := by
  revert i; decide

/-- A character has 1 to 5 elements (00_scope.md R9). -/
theorem isEntry_slen {e : BitVec 8} (h : IsEntry e) : 1 ≤ (entrySlen e).toNat ∧ (entrySlen e).toNat ≤ 5 := by
  rcases h with ⟨i, rfl⟩ | ⟨i, rfl⟩
  · exact romL_slen i
  · exact romD_slen i

/-- PEEK shows nothing exactly for an unresolvable byte (41_buffer_commands.md R126). -/
theorem resolve_unresolvable_iff (b : Byte) : resolve b = .unresolvable ↔ classify b = .unres := by
  unfold resolve
  cases classify b <;> simp

theorem peekByte_of_unres {b : Byte} (h : classify b = .unres) : peekByte b = 0 := by
  unfold peekByte; rw [h]

theorem peekByte_of_resolved {b : Byte} (h : classify b ≠ .unres) : peekByte b = 1#1 ++ upcase b := by
  unfold peekByte
  cases hc : classify b with
  | unres => exact absurd hc h
  | letter i => rfl
  | digit i => rfl
  | space => rfl

theorem valid_bit_of_append (c : Byte) : ((1#1 ++ c : BitVec 9)).getLsbD 8 = true := by
  revert c; decide

/-- The valid bit of `peek()` (41_buffer_commands.md R126). -/
theorem peekByte_valid (b : Byte) : (peekByte b).getLsbD 8 = true ↔ classify b ≠ .unres := by
  by_cases h : classify b = .unres
  · rw [peekByte_of_unres h]; simp [h]
  · rw [peekByte_of_resolved h]; simp [h, valid_bit_of_append]

end Sys2Proof.Machine
end

