-- ==== Sys2Proof/Laws/State.lean ====
section
/-! SUPPORT. One lemma per field per update of the state, so that no later proof unfolds a record update. -/

namespace Sys2Proof.Machine

variable (s : State)

/-! ### `tick` -/

@[simp] theorem tick_cfg : (tick s).cfg = s.cfg := rfl
@[simp] theorem tick_st : (tick s).st = s.st := rfl
@[simp] theorem tick_tmr : (tick s).tmr = s.tmr := rfl
@[simp] theorem tick_pat : (tick s).pat = s.pat := rfl
@[simp] theorem tick_slen : (tick s).slen = s.slen := rfl
@[simp] theorem tick_idx : (tick s).idx = s.idx := rfl
@[simp] theorem tick_cur : (tick s).cur = s.cur := rfl
@[simp] theorem tick_len : (tick s).len = s.len := rfl
@[simp] theorem tick_buf : (tick s).buf = s.buf := rfl
@[simp] theorem tick_rsp : (tick s).rsp = s.rsp := rfl
@[simp] theorem tick_lastAct : (tick s).lastAct = s.lastAct := rfl
@[simp] theorem tick_errCode : (tick s).errCode = s.errCode := rfl
@[simp] theorem tick_errWord : (tick s).errWord = s.errWord := rfl
@[simp] theorem tick_inputs : (tick s).inputs = s.inputs.tail := rfl
@[simp] theorem tick_draws : (tick s).draws = s.draws + 1 := rfl

/-! ### `resetState` -/

@[simp] theorem resetState_cfg : (resetState s).cfg = s.cfg := rfl
@[simp] theorem resetState_st : (resetState s).st = .idle := rfl
@[simp] theorem resetState_tmr : (resetState s).tmr = 0 := rfl
@[simp] theorem resetState_pat : (resetState s).pat = 0 := rfl
@[simp] theorem resetState_slen : (resetState s).slen = 0 := rfl
@[simp] theorem resetState_idx : (resetState s).idx = 0 := rfl
@[simp] theorem resetState_cur : (resetState s).cur = 0 := rfl
@[simp] theorem resetState_len : (resetState s).len = 0 := rfl
@[simp] theorem resetState_buf : (resetState s).buf = [] := rfl
@[simp] theorem resetState_rsp : (resetState s).rsp = 0 := rfl
@[simp] theorem resetState_lastAct : (resetState s).lastAct = .none := rfl
@[simp] theorem resetState_errCode : (resetState s).errCode = .none := rfl
@[simp] theorem resetState_errWord : (resetState s).errWord = 0 := rfl
@[simp] theorem resetState_inputs : (resetState s).inputs = s.inputs := rfl
@[simp] theorem resetState_draws : (resetState s).draws = s.draws := rfl

/-! ### `startSegment` -/

@[simp] theorem startSegment_cfg (q : St) (k : Nat) : (startSegment q k s).cfg = s.cfg := rfl
@[simp] theorem startSegment_st (q : St) (k : Nat) : (startSegment q k s).st = q := rfl
@[simp] theorem startSegment_tmr (q : St) (k : Nat) : (startSegment q k s).tmr = k - 1 := rfl
@[simp] theorem startSegment_pat (q : St) (k : Nat) : (startSegment q k s).pat = s.pat := rfl
@[simp] theorem startSegment_slen (q : St) (k : Nat) : (startSegment q k s).slen = s.slen := rfl
@[simp] theorem startSegment_idx (q : St) (k : Nat) : (startSegment q k s).idx = s.idx := rfl
@[simp] theorem startSegment_cur (q : St) (k : Nat) : (startSegment q k s).cur = s.cur := rfl
@[simp] theorem startSegment_len (q : St) (k : Nat) : (startSegment q k s).len = s.len := rfl
@[simp] theorem startSegment_buf (q : St) (k : Nat) : (startSegment q k s).buf = s.buf := rfl
@[simp] theorem startSegment_rsp (q : St) (k : Nat) : (startSegment q k s).rsp = s.rsp := rfl
@[simp] theorem startSegment_lastAct (q : St) (k : Nat) : (startSegment q k s).lastAct = s.lastAct := rfl
@[simp] theorem startSegment_errCode (q : St) (k : Nat) : (startSegment q k s).errCode = s.errCode := rfl
@[simp] theorem startSegment_errWord (q : St) (k : Nat) : (startSegment q k s).errWord = s.errWord := rfl
@[simp] theorem startSegment_inputs (q : St) (k : Nat) : (startSegment q k s).inputs = s.inputs := rfl
@[simp] theorem startSegment_draws (q : St) (k : Nat) : (startSegment q k s).draws = s.draws := rfl

/-! ### `bufWrite` -/

@[simp] theorem bufWrite_cfg (a : Nat) (v : Byte) : (bufWrite s a v).cfg = s.cfg := rfl
@[simp] theorem bufWrite_st (a : Nat) (v : Byte) : (bufWrite s a v).st = s.st := rfl
@[simp] theorem bufWrite_tmr (a : Nat) (v : Byte) : (bufWrite s a v).tmr = s.tmr := rfl
@[simp] theorem bufWrite_pat (a : Nat) (v : Byte) : (bufWrite s a v).pat = s.pat := rfl
@[simp] theorem bufWrite_slen (a : Nat) (v : Byte) : (bufWrite s a v).slen = s.slen := rfl
@[simp] theorem bufWrite_idx (a : Nat) (v : Byte) : (bufWrite s a v).idx = s.idx := rfl
@[simp] theorem bufWrite_cur (a : Nat) (v : Byte) : (bufWrite s a v).cur = s.cur := rfl
@[simp] theorem bufWrite_len (a : Nat) (v : Byte) : (bufWrite s a v).len = s.len := rfl
@[simp] theorem bufWrite_buf (a : Nat) (v : Byte) : (bufWrite s a v).buf = bufInsert s.buf a v := rfl
@[simp] theorem bufWrite_rsp (a : Nat) (v : Byte) : (bufWrite s a v).rsp = s.rsp := rfl
@[simp] theorem bufWrite_lastAct (a : Nat) (v : Byte) : (bufWrite s a v).lastAct = s.lastAct := rfl
@[simp] theorem bufWrite_errCode (a : Nat) (v : Byte) : (bufWrite s a v).errCode = s.errCode := rfl
@[simp] theorem bufWrite_errWord (a : Nat) (v : Byte) : (bufWrite s a v).errWord = s.errWord := rfl
@[simp] theorem bufWrite_inputs (a : Nat) (v : Byte) : (bufWrite s a v).inputs = s.inputs := rfl
@[simp] theorem bufWrite_draws (a : Nat) (v : Byte) : (bufWrite s a v).draws = s.draws := rfl

/-! ### `recordError`: every register but `err_code` and `err_word` keeps its value (60_exceptions.md R182) -/

@[simp] theorem recordError_cfg (e : CmdError) (w : Word) : (recordError e w s).cfg = s.cfg := by
  unfold recordError; split <;> rfl
@[simp] theorem recordError_st (e : CmdError) (w : Word) : (recordError e w s).st = s.st := by
  unfold recordError; split <;> rfl
@[simp] theorem recordError_tmr (e : CmdError) (w : Word) : (recordError e w s).tmr = s.tmr := by
  unfold recordError; split <;> rfl
@[simp] theorem recordError_pat (e : CmdError) (w : Word) : (recordError e w s).pat = s.pat := by
  unfold recordError; split <;> rfl
@[simp] theorem recordError_slen (e : CmdError) (w : Word) : (recordError e w s).slen = s.slen := by
  unfold recordError; split <;> rfl
@[simp] theorem recordError_idx (e : CmdError) (w : Word) : (recordError e w s).idx = s.idx := by
  unfold recordError; split <;> rfl
@[simp] theorem recordError_cur (e : CmdError) (w : Word) : (recordError e w s).cur = s.cur := by
  unfold recordError; split <;> rfl
@[simp] theorem recordError_len (e : CmdError) (w : Word) : (recordError e w s).len = s.len := by
  unfold recordError; split <;> rfl
@[simp] theorem recordError_buf (e : CmdError) (w : Word) : (recordError e w s).buf = s.buf := by
  unfold recordError; split <;> rfl
@[simp] theorem recordError_rsp (e : CmdError) (w : Word) : (recordError e w s).rsp = s.rsp := by
  unfold recordError; split <;> rfl
@[simp] theorem recordError_lastAct (e : CmdError) (w : Word) : (recordError e w s).lastAct = s.lastAct := by
  unfold recordError; split <;> rfl
@[simp] theorem recordError_inputs (e : CmdError) (w : Word) : (recordError e w s).inputs = s.inputs := by
  unfold recordError; split <;> rfl
@[simp] theorem recordError_draws (e : CmdError) (w : Word) : (recordError e w s).draws = s.draws := by
  unfold recordError; split <;> rfl

/-- The first error since reset is the one kept (60_exceptions.md R183). -/
theorem recordError_of_recorded {e : CmdError} {w : Word} (h : s.errCode ≠ .none) : recordError e w s = s := by
  simp [recordError, h]

/-- The first error since reset is recorded with its word (60_exceptions.md R182). -/
theorem recordError_of_clear {e : CmdError} {w : Word} (h : s.errCode = .none) :
    recordError e w s = { s with errCode := errCodeOf e, errWord := w } := by
  simp [recordError, h]

theorem errCodeOf_ne_none (e : CmdError) : errCodeOf e ≠ .none := by cases e <;> decide

end Sys2Proof.Machine
end

