-- ==== Sys2Proof/Laws/Memory.lean ====
section
/-! SUPPORT. The buffer: a read after a write gives the value written, other addresses keep theirs, and every operation
keeps the canonical form. -/

namespace Sys2Proof.Machine

@[simp] theorem bufLookup_nil (a : Nat) : bufLookup [] a = none := rfl

theorem bufLookup_insert_self (m : List Host.Cell) (a : Nat) (v : Byte) : bufLookup (bufInsert m a v) a = some v := by
  induction m with
  | nil => simp [bufInsert, bufLookup]
  | cons p m ih =>
    obtain ⟨k, x⟩ := p
    unfold bufInsert
    split
    · simp [bufLookup]
    · split
      · simp [bufLookup]
      · rename_i _ hne
        simp [bufLookup, hne, ih]

theorem bufLookup_insert_other (m : List Host.Cell) {a b : Nat} (v : Byte) (h : b ≠ a) :
    bufLookup (bufInsert m a v) b = bufLookup m b := by
  induction m with
  | nil => simp [bufInsert, bufLookup, h]
  | cons p m ih =>
    obtain ⟨k, x⟩ := p
    unfold bufInsert
    split
    · simp [bufLookup, h]
    · split
      · rename_i _ hk
        subst hk
        simp [bufLookup, h]
      · simp [bufLookup, ih]

theorem mem_bufInsert {m : List Host.Cell} {a : Nat} {v : Byte} {p : Host.Cell} (h : p ∈ bufInsert m a v) :
    p = (a, v) ∨ p ∈ m := by
  induction m with
  | nil => simpa [bufInsert] using h
  | cons q m ih =>
    obtain ⟨k, x⟩ := q
    unfold bufInsert at h
    split at h
    · simpa using h
    · split at h
      · rcases List.mem_cons.1 h with h | h
        · exact .inl h
        · exact .inr (List.mem_cons_of_mem _ h)
      · rcases List.mem_cons.1 h with h | h
        · exact .inr (h ▸ List.mem_cons_self)
        · exact (ih h).imp id (List.mem_cons_of_mem _)

/-- A write keeps the canonical form. -/
theorem bufInsert_wf {m : List Host.Cell} (a : Nat) (v : Byte) (h : Memory.wf m) : Memory.wf (bufInsert m a v) := by
  induction m with
  | nil => simp [bufInsert, Memory.wf]
  | cons p m ih =>
    obtain ⟨k, x⟩ := p
    obtain ⟨hk, hm⟩ := List.pairwise_cons.1 h
    unfold bufInsert
    split
    · rename_i hak
      refine List.pairwise_cons.2 ⟨fun q hq => ?_, h⟩
      rcases List.mem_cons.1 hq with rfl | hq
      · exact hak
      · exact Nat.lt_trans hak (hk q hq)
    · split
      · rename_i _ hak
        subst hak
        exact List.pairwise_cons.2 ⟨fun q hq => hk q hq, hm⟩
      · rename_i h1 h2
        refine List.pairwise_cons.2 ⟨fun q hq => ?_, ih hm⟩
        rcases mem_bufInsert hq with rfl | hq
        · show k < a
          omega
        · exact hk q hq

/-- A write inside the buffer keeps every listed address inside it. -/
theorem bufInsert_fits {m : List Host.Cell} {a n : Nat} (v : Byte) (ha : a < n) (h : Memory.fits n m) :
    Memory.fits n (bufInsert m a v) := fun p hp => by
  rcases mem_bufInsert hp with rfl | hp
  · exact ha
  · exact h p hp

/-- Every operation on the buffer keeps the canonical form: a write, and the reset that empties it. -/
theorem bufWrite_keeps_wf {s : State} (a : Nat) (v : Byte) (h : Memory.wf s.buf) : Memory.wf (bufWrite s a v).buf :=
  bufInsert_wf a v h

theorem resetState_wf (s : State) : Memory.wf (resetState s).buf := List.Pairwise.nil

theorem reset_wf : Memory.wf State.reset.buf := List.Pairwise.nil

theorem written_iff {s : State} {a : Nat} : written s a = true ↔ ∃ b, bufLookup s.buf a = some b := by
  simp [written, Option.isSome_iff_exists]

/-- All that `BufRead` can do (20_memory.md R62). -/
theorem bufRead_eq (s : State) (a : Nat) :
    (∃ b, bufLookup s.buf a = some b ∧ bufRead s a = .ok b) ∨
    (bufLookup s.buf a = none ∧ bufRead s a = .error (.unwrittenRead a)) := by
  unfold bufRead
  cases h : bufLookup s.buf a with
  | none => exact .inr ⟨rfl, rfl⟩
  | some b => exact .inl ⟨b, rfl, rfl⟩

end Sys2Proof.Machine
end

