-- ==== Sys2Proof/Laws/Playback.lean ====
section
/-! SUPPORT. The advance of a running operation: its cases, and what it never writes (42_playback.md R143). -/

namespace Sys2Proof.Machine

/-- Inside a segment the timer counts, and nothing else moves. -/
theorem advance_of_tmr_ne {s : State} (h : s.tmr ≠ 0) : advance s = { s with tmr := s.tmr - 1 } := by
  simp [advance, h]

theorem advance_of_tmr_zero {s : State} (h : s.tmr = 0) : advance s = endSegment s := by
  simp [advance, h]

/-- All that the end of a segment can do (42_playback.md R143). -/
theorem endSegment_cases (s : State) :
    (s.st = .idle ∧ endSegment s = s) ∨
    (s.st = .mark ∧ moreElements s = true ∧ endSegment s = startSegment .egap s.cfg.unitCycles s) ∨
    (s.st = .egap ∧ endSegment s =
      startSegment .mark (dur s.cfg.unitCycles s.pat (s.idx.toNat + 1)) { s with idx := s.idx + 1 }) ∨
    ((s.st = .word ∨ s.st = .cgap ∨ (s.st = .mark ∧ moreElements s = false)) ∧
      endSegment s = { s with st := .idle }) := by
  unfold endSegment
  cases h : s.st
  · simp
  · cases hm : moreElements s <;> simp
  · simp
  · simp
  · simp

/-- What an advance leaves alone (42_playback.md R143). -/
theorem advance_frame (s : State) :
    (advance s).cfg = s.cfg ∧ (advance s).pat = s.pat ∧ (advance s).slen = s.slen ∧ (advance s).cur = s.cur ∧
    (advance s).len = s.len ∧ (advance s).buf = s.buf ∧ (advance s).rsp = s.rsp ∧
    (advance s).lastAct = s.lastAct ∧ (advance s).errCode = s.errCode ∧ (advance s).errWord = s.errWord ∧
    (advance s).inputs = s.inputs ∧ (advance s).draws = s.draws := by
  by_cases h : s.tmr = 0
  · rw [advance_of_tmr_zero h]
    rcases endSegment_cases s with ⟨_, e⟩ | ⟨_, _, e⟩ | ⟨_, e⟩ | ⟨_, e⟩ <;> rw [e] <;> simp
  · rw [advance_of_tmr_ne h]; simp

@[simp] theorem advance_cfg (s : State) : (advance s).cfg = s.cfg := (advance_frame s).1
@[simp] theorem advance_pat (s : State) : (advance s).pat = s.pat := (advance_frame s).2.1
@[simp] theorem advance_slen (s : State) : (advance s).slen = s.slen := (advance_frame s).2.2.1
@[simp] theorem advance_cur (s : State) : (advance s).cur = s.cur := (advance_frame s).2.2.2.1
@[simp] theorem advance_len (s : State) : (advance s).len = s.len := (advance_frame s).2.2.2.2.1
@[simp] theorem advance_buf (s : State) : (advance s).buf = s.buf := (advance_frame s).2.2.2.2.2.1
@[simp] theorem advance_rsp (s : State) : (advance s).rsp = s.rsp := (advance_frame s).2.2.2.2.2.2.1
@[simp] theorem advance_lastAct (s : State) : (advance s).lastAct = s.lastAct := (advance_frame s).2.2.2.2.2.2.2.1
@[simp] theorem advance_errCode (s : State) : (advance s).errCode = s.errCode :=
  (advance_frame s).2.2.2.2.2.2.2.2.1
@[simp] theorem advance_errWord (s : State) : (advance s).errWord = s.errWord :=
  (advance_frame s).2.2.2.2.2.2.2.2.2.1
@[simp] theorem advance_inputs (s : State) : (advance s).inputs = s.inputs :=
  (advance_frame s).2.2.2.2.2.2.2.2.2.2.1
@[simp] theorem advance_draws (s : State) : (advance s).draws = s.draws := (advance_frame s).2.2.2.2.2.2.2.2.2.2.2

/-- What the finishing predicate says (42_playback.md R144). -/
theorem finishing_eq_true {s : State} :
    finishing s = true ↔
      s.tmr = 0 ∧ (s.st = .word ∨ s.st = .cgap ∨ (s.st = .mark ∧ moreElements s = false)) := by
  unfold finishing
  cases h : s.st <;> simp

/-- The edge after a finishing cycle ends the operation and changes nothing else. -/
theorem advance_of_finishing {s : State} (h : finishing s = true) : advance s = { s with st := .idle } := by
  obtain ⟨ht, hs⟩ := finishing_eq_true.1 h
  rw [advance_of_tmr_zero ht]
  unfold endSegment
  rcases hs with h | h | ⟨h, hm⟩ <;> simp [*]

end Sys2Proof.Machine
end

