-- ==== Sys2Proof/Laws/Edge.lean ====
section
/-! SUPPORT. One edge, said once: the cases of a step, and the cases of each meaning. -/

namespace Sys2Proof.Machine

@[simp] theorem moreElements_tick (s : State) : moreElements (tick s) = moreElements s := rfl
@[simp] theorem finishing_tick (s : State) : finishing (tick s) = finishing s := rfl
@[simp] theorem cmdReady_tick (s : State) : cmdReady (tick s) = cmdReady s := rfl
@[simp] theorem accepts_tick (p : Inputs) (s : State) : accepts p (tick s) = accepts p s := rfl
@[simp] theorem accepts_inputs (p : Inputs) (s : State) (l : List Inputs) :
    accepts p { s with inputs := l } = accepts p s := rfl

theorem advanced_of_idle {s : State} (h : s.st = .idle) : advanced s = s := by simp [advanced, h]

theorem advanced_of_busy {s : State} (h : s.st ≠ .idle) : advanced s = advance s := by simp [advanced, h]

@[simp] theorem advanced_cfg (s : State) : (advanced s).cfg = s.cfg := by unfold advanced; split <;> simp
@[simp] theorem advanced_pat (s : State) : (advanced s).pat = s.pat := by unfold advanced; split <;> simp
@[simp] theorem advanced_slen (s : State) : (advanced s).slen = s.slen := by unfold advanced; split <;> simp
@[simp] theorem advanced_cur (s : State) : (advanced s).cur = s.cur := by unfold advanced; split <;> simp
@[simp] theorem advanced_len (s : State) : (advanced s).len = s.len := by unfold advanced; split <;> simp
@[simp] theorem advanced_buf (s : State) : (advanced s).buf = s.buf := by unfold advanced; split <;> simp
@[simp] theorem advanced_rsp (s : State) : (advanced s).rsp = s.rsp := by unfold advanced; split <;> simp
@[simp] theorem advanced_lastAct (s : State) : (advanced s).lastAct = s.lastAct := by
  unfold advanced; split <;> simp
@[simp] theorem advanced_errCode (s : State) : (advanced s).errCode = s.errCode := by
  unfold advanced; split <;> simp
@[simp] theorem advanced_errWord (s : State) : (advanced s).errWord = s.errWord := by
  unfold advanced; split <;> simp
@[simp] theorem advanced_inputs (s : State) : (advanced s).inputs = s.inputs := by unfold advanced; split <;> simp
@[simp] theorem advanced_draws (s : State) : (advanced s).draws = s.draws := by unfold advanced; split <;> simp

theorem accepts_eq_true {p : Inputs} {s : State} :
    accepts p s = true ↔ p.rst = false ∧ p.cmdValid = true ∧ cmdReady s = true := by
  simp [accepts, and_assoc]

/-- All that a step can do (41_buffer_commands.md R120): a reset, an accepted word that is an error, an accepted command,
or an advance. -/
theorem step_cases (s : State) :
    ((sampled s).rst = true ∧ step s = .next (resetState (tick s))) ∨
    (accepts (sampled s) s = true ∧
      ∃ e, decode (sampled s).cmd = .error e ∧
        step s = .next (recordError e (sampled s).cmd (advanced (tick s)))) ∨
    (accepts (sampled s) s = true ∧
      ∃ i, decode (sampled s).cmd = .ok i ∧ step s = exec i (advanced (tick s))) ∨
    ((sampled s).rst = false ∧ accepts (sampled s) s = false ∧ step s = .next (advanced (tick s))) := by
  unfold step edge
  rw [accepts_tick]
  by_cases hr : (sampled s).rst = true
  · exact .inl ⟨hr, by simp [hr]⟩
  · by_cases ha : accepts (sampled s) s = true
    · simp only [ha, if_true, execWord]
      cases hd : decode (sampled s).cmd with
      | error e => exact .inr (.inl ⟨trivial, e, rfl, by simp [hr]⟩)
      | ok i => exact .inr (.inr (.inl ⟨trivial, i, rfl, by simp [hr]⟩))
    · exact .inr (.inr (.inr ⟨by simpa using hr, by simpa using ha, by simp [hr, ha]⟩))

/-- An edge without reset that accepts nothing only advances. -/
theorem step_of_not_accepts {s : State} (hr : (sampled s).rst = false) (ha : accepts (sampled s) s = false) :
    step s = .next (advanced (tick s)) := by
  simp [step, edge, hr, ha]

theorem accepts_of_not_ready {p : Inputs} {s : State} (h : cmdReady s = false) : accepts p s = false := by
  simp [accepts, h]

/-- All that PEEK can do (41_buffer_commands.md R127). -/
theorem execPeek_cases (a : Addr) (d : Byte) (s : State) :
    (s.len.toNat ≤ s.cur.toNat ∧ execPeek a d s = .next { s with rsp := 0 }) ∨
    (s.cur.toNat < s.len.toNat ∧
      ∃ b, bufLookup s.buf s.cur.toNat = some b ∧ execPeek a d s = .next { s with rsp := peekByte b }) ∨
    (s.cur.toNat < s.len.toNat ∧ bufLookup s.buf s.cur.toNat = none ∧
      execPeek a d s = .fault (.unwrittenRead s.cur.toNat)) := by
  unfold execPeek peek exhausted cursorByte
  by_cases h : s.len.toNat ≤ s.cur.toNat
  · exact .inl ⟨h, by simp [h]⟩
  · have h' : s.cur.toNat < s.len.toNat := by omega
    rcases bufRead_eq s s.cur.toNat with ⟨b, hb, e⟩ | ⟨hb, e⟩
    · exact .inr (.inl ⟨h', b, hb, by simp [h, e]⟩)
    · exact .inr (.inr ⟨h', hb, by simp [h, e]⟩)

/-- All that CONSUME can do (42_playback.md R155). -/
theorem execConsume_cases (a : Addr) (d : Byte) (s : State) :
    (s.len.toNat ≤ s.cur.toNat ∧ execConsume a d s = .next { s with lastAct := .exhausted }) ∨
    (s.cur.toNat < s.len.toNat ∧
      ∃ b, bufLookup s.buf s.cur.toNat = some b ∧ execConsume a d s = .next (consumeByte b s)) ∨
    (s.cur.toNat < s.len.toNat ∧ bufLookup s.buf s.cur.toNat = none ∧
      execConsume a d s = .fault (.unwrittenRead s.cur.toNat)) := by
  unfold execConsume exhausted cursorByte
  by_cases h : s.len.toNat ≤ s.cur.toNat
  · exact .inl ⟨h, by simp [h]⟩
  · have h' : s.cur.toNat < s.len.toNat := by omega
    rcases bufRead_eq s s.cur.toNat with ⟨b, hb, e⟩ | ⟨hb, e⟩
    · exact .inr (.inl ⟨h', b, hb, by simp [h, e]⟩)
    · exact .inr (.inr ⟨h', hb, by simp [h, e]⟩)

theorem consumeByte_of_silence {b : Byte} {s : State} (h : resolve b = .silence) :
    consumeByte b s = startWordGap s := by
  unfold consumeByte; rw [h]

theorem consumeByte_of_signal {b : Byte} {e : BitVec 8} {s : State} (h : resolve b = .signal e) :
    consumeByte b s = startCharacter e s := by
  unfold consumeByte; rw [h]

theorem consumeByte_of_unresolvable {b : Byte} {s : State} (h : resolve b = .unresolvable) :
    consumeByte b s = { s with lastAct := .unresolvable } := by
  unfold consumeByte; rw [h]

/-- All that WRBUF can do (41_buffer_commands.md R124). -/
theorem execWrbuf_cases (a : Addr) (d : Byte) (s : State) :
    (a.toNat < s.cfg.bufDepth ∧ execWrbuf a d s = .next (bufWrite s a.toNat d)) ∨
    (s.cfg.bufDepth ≤ a.toNat ∧ execWrbuf a d s = .next (recordError .addrRange (encode (.wrbuf a d)) s)) := by
  unfold execWrbuf operandA operandD
  by_cases h : a.toNat < s.cfg.bufDepth
  · exact .inl ⟨h, by simp [h]⟩
  · exact .inr ⟨by omega, by simp [h]⟩

/-- All that LOAD can do (41_buffer_commands.md R125). -/
theorem execLoad_cases (a : Addr) (d : Byte) (s : State) :
    (a.toNat ≤ s.cfg.bufDepth ∧ execLoad a d s = .next { s with len := a, cur := 0 }) ∨
    (s.cfg.bufDepth < a.toNat ∧ execLoad a d s = .next (recordError .lenRange (encode (.load a d)) s)) := by
  unfold execLoad operandA
  by_cases h : a.toNat ≤ s.cfg.bufDepth
  · exact .inl ⟨h, by simp [h]⟩
  · exact .inr ⟨by omega, by simp [h]⟩

end Sys2Proof.Machine
end

