-- ==== Sys2Proof/Laws/PerInstr.lean ====
section
/-! SUPPORT. Facts about every command as syntax, one lemma per constructor. -/

namespace Sys2Proof.Laws.LegalShape

/-- The word of a command has a defined OP and RSV = 0 (30_encoding.md R89). -/
def Statement (i : Instr) : Prop := (opField (encode i)).toNat ≤ 5 ∧ rsvField (encode i) = 0

theorem opField_packWord (op : BitVec 4) (a : Addr) (d : Byte) : opField (packWord op a d) = op := by
  apply BitVec.eq_of_getLsbD_eq
  intro i hi
  have h1 : ¬ 28 + i < 8 + (12 + 8) := by omega
  simp only [opField, packWord, BitVec.getLsbD_extractLsb', BitVec.getLsbD_append, h1, hi, if_false]
  simp [show 28 + i - 28 = i by omega]

theorem rsvField_packWord (op : BitVec 4) (a : Addr) (d : Byte) : rsvField (packWord op a d) = 0 := by
  apply BitVec.eq_of_getLsbD_eq
  intro i hi
  have h1 : 20 + i < 8 + (12 + 8) := by omega
  have h2 : ¬ 20 + i < 12 + 8 := by omega
  simp only [rsvField, packWord, BitVec.getLsbD_extractLsb', BitVec.getLsbD_append, h1, h2, if_true, if_false]
  simp

theorem nop (a : Addr) (d : Byte) : Statement (.nop a d) := by
  simp [Statement, encode, opField_packWord, rsvField_packWord]

theorem wrbuf (a : Addr) (d : Byte) : Statement (.wrbuf a d) := by
  simp [Statement, encode, opField_packWord, rsvField_packWord]

theorem load (a : Addr) (d : Byte) : Statement (.load a d) := by
  simp [Statement, encode, opField_packWord, rsvField_packWord]

theorem peek (a : Addr) (d : Byte) : Statement (.peek a d) := by
  simp [Statement, encode, opField_packWord, rsvField_packWord]

theorem consume (a : Addr) (d : Byte) : Statement (.consume a d) := by
  simp [Statement, encode, opField_packWord, rsvField_packWord]

theorem gap (a : Addr) (d : Byte) : Statement (.gap a d) := by
  simp [Statement, encode, opField_packWord, rsvField_packWord]

end Sys2Proof.Laws.LegalShape
end

