-- ==== Sys2Proof/Laws/Encoding.lean ====
section
/-! SUPPORT. The fields of a packed word, and a word packed again from its fields (30_encoding.md R81). -/

namespace Sys2Proof

theorem aField_packWord (op : BitVec 4) (a : Addr) (d : Byte) : aField (packWord op a d) = a := by
  apply BitVec.eq_of_getLsbD_eq
  intro i hi
  have h1 : 8 + i < 8 + (12 + 8) := by omega
  have h2 : 8 + i < 12 + 8 := by omega
  simp only [aField, packWord, BitVec.getLsbD_extractLsb', BitVec.getLsbD_append, h1, h2, hi, if_true]
  simp

theorem dField_packWord (op : BitVec 4) (a : Addr) (d : Byte) : dField (packWord op a d) = d := by
  apply BitVec.eq_of_getLsbD_eq
  intro i hi
  have h1 : 0 + i < 8 + (12 + 8) := by omega
  have h2 : 0 + i < 12 + 8 := by omega
  simp only [dField, packWord, BitVec.getLsbD_extractLsb', BitVec.getLsbD_append, h1, h2, hi, if_true]
  simp [hi]

/-- A word with RSV = 0 is the packing of its other three fields. -/
theorem packWord_fields {w : Word} (h : rsvField w = 0) : packWord (opField w) (aField w) (dField w) = w := by
  have hr : ∀ j, (rsvField w).getLsbD j = false := by rw [h]; simp
  apply BitVec.eq_of_getLsbD_eq
  intro i hi
  have hri := hr (i - 20)
  simp only [rsvField, BitVec.getLsbD_extractLsb'] at hri
  simp only [packWord, BitVec.getLsbD_append, opField, aField, dField, BitVec.getLsbD_extractLsb']
  by_cases h8 : i < 8
  · simp [h8, show i < 20 by omega, show i < 28 by omega]
  · by_cases h20 : i < 20
    · simp [h8, h20, show i < 28 by omega, show i - 8 < 12 by omega, show 8 + (i - 8) = i by omega]
    · by_cases h28 : i < 28
      · have : 20 + (i - 20) = i := by omega
        simp [show i - 20 < 8 by omega, this] at hri
        simp [h20, h28, hri]
      · simp [h28, show i - 28 < 4 by omega, show 28 + (i - 28) = i by omega]

end Sys2Proof
end

