-- ==== Sys2Proof/Laws/Run.lean ====
section
/-! SUPPORT. Runs of many edges: one edge at a time, one run after another, the host's `rst` along a run, and the traces
of a character. -/

namespace Sys2Proof.Machine

/-! ### Runs and observations -/

theorem run_succ {s t : State} (k : Nat) (h : step s = .next t) : core.run (k + 1) s = core.run k t := by
  have : core.step s = .next t := h
  simp only [Host.Core.run, this]

theorem run_succ_of_stops {s : State} (k : Nat) (h : ∀ t, step s ≠ .next t) (t : State) :
    core.run (k + 1) s ≠ .next t := by
  cases hs : step s with
  | next u => exact absurd hs (h u)
  | fault r =>
    have : core.step s = .fault r := hs
    simp only [Host.Core.run, this]; simp
  | refused r =>
    have : core.step s = .refused r := hs
    simp only [Host.Core.run, this]; simp

/-- A run that goes on has a first step that goes on. -/
theorem step_of_run {s t : State} {k : Nat} (h : core.run (k + 1) s = .next t) :
    ∃ u, step s = .next u ∧ core.run k u = .next t := by
  by_cases hs : ∃ u, step s = .next u
  · obtain ⟨u, hu⟩ := hs
    exact ⟨u, hu, by rwa [run_succ k hu] at h⟩
  · exact absurd h (run_succ_of_stops k (fun u hu => hs ⟨u, hu⟩) t)

theorem run_append {s t : State} {k : Nat} (n : Nat) (h : core.run k s = .next t) :
    core.run (k + n) s = core.run n t := by
  induction k generalizing s with
  | zero => cases h; rw [Nat.zero_add]
  | succ k ih =>
    obtain ⟨u, hu, hk⟩ := step_of_run h
    rw [Nat.add_right_comm, run_succ _ hu, ih hk]

theorem observe_succ {α : Type} (f : State → α) {s t : State} (k : Nat) (h : step s = .next t) :
    observe f (k + 1) s = f s :: observe f k t := by
  simp [observe, h]

theorem observe_one {α : Type} (f : State → α) (s : State) : observe f 1 s = [f s] := by
  unfold observe; cases step s <;> rfl

theorem observe_append {α : Type} (f : State → α) {s t : State} {k : Nat} (n : Nat) (h : core.run k s = .next t) :
    observe f (k + n) s = observe f k s ++ observe f n t := by
  induction k generalizing s with
  | zero => cases h; rw [Nat.zero_add]; rfl
  | succ k ih =>
    obtain ⟨u, hu, hk⟩ := step_of_run h
    rw [Nat.add_right_comm, observe_succ f _ hu, observe_succ f _ hu, ih hk]; rfl

/-! ### The host's `rst` along a run -/

theorem NoReset.head {k : Nat} {s : State} (h : NoReset (k + 1) s) : (sampled s).rst = false := by
  unfold sampled
  cases hi : s.inputs with
  | nil => rfl
  | cons p l => exact h p (by simp [hi])

theorem NoReset.drop {k n : Nat} {s t : State} (h : NoReset (k + n) s) (ht : t.inputs = s.inputs.drop k) :
    NoReset n t := by
  intro p hp
  apply h p
  rw [ht] at hp
  rw [List.take_add]
  exact List.mem_append_right _ hp

theorem NoReset.tail {k : Nat} {s t : State} (h : NoReset (k + 1) s) (ht : t.inputs = s.inputs.tail) :
    NoReset k t :=
  NoReset.drop (k := 1) (by rwa [Nat.add_comm]) (by rw [ht, List.drop_one])

theorem NoReset.mono {k n : Nat} {s : State} (h : NoReset n s) (hk : k ≤ n) : NoReset k s := fun p hp =>
  h p ((List.take_subset_take_left s.inputs hk) hp)

theorem noReset_of_no_inputs {s : State} (n : Nat) (h : s.inputs = []) : NoReset n s := by
  intro p hp; simp [h] at hp

/-! ### One edge of a running operation -/

/-- Inside a segment an edge only counts (42_playback.md R143). -/
theorem step_of_counting {s : State} (hs : s.st ≠ .idle) (ht : s.tmr ≠ 0) (hr : (sampled s).rst = false) :
    step s = .next { tick s with tmr := s.tmr - 1 } := by
  have hc : cmdReady s = false := by simp [cmdReady, hs, finishing, ht]
  rw [step_of_not_accepts hr (accepts_of_not_ready hc), advanced_of_busy (by simpa using hs),
    advance_of_tmr_ne (by simpa using ht)]
  rfl

/-- The state a command accepted in this cycle runs in (42_playback.md R145). -/
theorem atAccept_of_ready {s : State} (h : cmdReady s = true) :
    atAccept s = { s with st := .idle, inputs := s.inputs.tail, draws := s.draws + 1 } := by
  simp only [cmdReady, Bool.or_eq_true, beq_iff_eq] at h
  unfold atAccept
  by_cases hi : s.st = .idle
  · rw [advanced_of_idle (by simpa using hi)]; unfold tick; rw [← hi]
  · rw [advanced_of_busy (by simpa using hi), advance_of_finishing (by simpa using h.resolve_left hi)]; rfl

/-! ### Durations and traces -/

theorem unitCycles_pos {c : Config} (h : c.Valid) : 1 ≤ c.unitCycles := Nat.mul_pos h.1 h.2.1

theorem dur_pos {u : Nat} (h : 1 ≤ u) (pat : BitVec 5) (i : Nat) : 1 ≤ dur u pat i := by
  unfold dur; split <;> omega

theorem elementTrace_one (u : Nat) (pat : BitVec 5) (i : Nat) :
    elementTrace u pat i 1 = List.replicate (dur u pat i) true := by
  simp [elementTrace]

theorem elementTrace_succ (u : Nat) (pat : BitVec 5) (i n : Nat) :
    elementTrace u pat i (n + 2) =
      List.replicate (dur u pat i) true ++ (List.replicate u false ++ elementTrace u pat (i + 1) (n + 1)) := by
  rw [elementTrace]; simp

/-- UNITs of the elements `i, …, i + n` of a pattern. -/
theorem units_from_succ (pat : BitVec 5) (i n : Nat) :
    ((List.range (n + 2)).map (fun j => if pat.getLsbD (i + j) then 3 else 1)).sum =
      (if pat.getLsbD i then 3 else 1) +
        ((List.range (n + 1)).map (fun j => if pat.getLsbD (i + 1 + j) then 3 else 1)).sum := by
  rw [List.range_succ_eq_map (n := n + 1)]
  simp only [List.map_cons, List.map_map, List.sum_cons, Nat.add_zero]
  congr 3
  funext j
  simp [Function.comp, Nat.add_assoc, Nat.add_comm 1 j]

theorem elementTrace_length (u : Nat) (pat : BitVec 5) (n i : Nat) :
    (elementTrace u pat i (n + 1)).length =
      (((List.range (n + 1)).map (fun j => if pat.getLsbD (i + j) then 3 else 1)).sum + n) * u := by
  induction n generalizing i with
  | zero => rw [elementTrace_one]; simp [dur]
  | succ n ih =>
    rw [elementTrace_succ, units_from_succ]
    simp only [List.length_append, List.length_replicate, ih]
    unfold dur; split <;> ring

theorem elementTrace_count (u : Nat) (pat : BitVec 5) (n i : Nat) :
    (elementTrace u pat i (n + 1)).count true =
      ((List.range (n + 1)).map (fun j => if pat.getLsbD (i + j) then 3 else 1)).sum * u := by
  induction n generalizing i with
  | zero => rw [elementTrace_one]; simp [dur]
  | succ n ih =>
    rw [elementTrace_succ, units_from_succ]
    rw [List.count_append, List.count_append, ih, List.count_replicate_self, List.count_replicate]
    unfold dur; cases pat.getLsbD i <;> simp <;> ring

/-! ### Command programs -/

@[simp] theorem programInputs_nil : programInputs [] = Inputs.quiet := rfl
@[simp] theorem programInputs_offer (w : Word) (os : List HostOffer) :
    programInputs (⟨0, w⟩ :: os) = Inputs.offer w := rfl
@[simp] theorem programInputs_wait (k : Nat) (w : Word) (os : List HostOffer) :
    programInputs (⟨k + 1, w⟩ :: os) = Inputs.quiet := rfl

@[simp] theorem programAfter_nil (ready : Bool) : programAfter ready [] = [] := rfl
@[simp] theorem programAfter_accepted (w : Word) (os : List HostOffer) :
    programAfter true (⟨0, w⟩ :: os) = os := rfl
@[simp] theorem programAfter_held (w : Word) (os : List HostOffer) :
    programAfter false (⟨0, w⟩ :: os) = ⟨0, w⟩ :: os := rfl
@[simp] theorem programAfter_wait (ready : Bool) (k : Nat) (w : Word) (os : List HostOffer) :
    programAfter ready (⟨k + 1, w⟩ :: os) = ⟨k, w⟩ :: os := rfl

/-- A program never asserts reset. -/
theorem programInputs_rst (os : List HostOffer) : (programInputs os).rst = false := by
  match os with
  | []              => rfl
  | ⟨0, _⟩ :: _     => rfl
  | ⟨_ + 1, _⟩ :: _ => rfl

/-- A run ends where nothing is left to offer and no operation runs (70_reset_and_hazards.md R225). -/
theorem runProgram_done {s : State} (n : Nat) (h : s.st = .idle) : runProgram (n + 1) [] s = some ([], s) := by
  simp [runProgram, h]

/-- One cycle of a run that goes on. -/
theorem runProgram_cycle {s : State} {os : List HostOffer} (n : Nat) (h : ¬ (os = [] ∧ s.st = .idle)) :
    runProgram (n + 1) os s =
      thenRun s (drive (programInputs os) s) (runProgram n (programAfter (cmdReady s) os)) := by
  rw [runProgram, if_neg h]

/-! ### One cycle of the host loop -/

@[simp] theorem delaysSpent_nil : delaysSpent [] = [] := rfl
@[simp] theorem delaysSpent_cons (d : Nat) (ds : List Nat) : delaysSpent (d :: ds) = (d - 1) :: ds := rfl

/-- Outside the loop and idle, the run ends. -/
theorem hostLoop_done {f : HostForm} {g : Bool} {p : HostPhase} {s : State} (n : Nat) (ds : List Nat)
    (h : hostCommand f g p s = none) (hi : s.st = .idle) : hostLoop f g (n + 1) ds p s = some ([], s) := by
  simp [hostLoop, h, hi]

/-- Outside the loop with an operation running, the host only waits. -/
theorem hostLoop_left {f : HostForm} {g : Bool} {p : HostPhase} {s : State} (n : Nat) (ds : List Nat)
    (h : hostCommand f g p s = none) (hi : s.st ≠ .idle) :
    hostLoop f g (n + 1) ds p s = thenRun s (drive Inputs.quiet s) (hostLoop f g n ds p) := by
  simp [hostLoop, h, hi]

/-- A cycle of the host's own delay. -/
theorem hostLoop_wait {f : HostForm} {g : Bool} {p : HostPhase} {s : State} {i : Instr} {ds : List Nat} (n : Nat)
    (h : hostCommand f g p s = some i) (hd : ds.headD 0 ≠ 0) :
    hostLoop f g (n + 1) ds p s = thenRun s (drive Inputs.quiet s) (hostLoop f g n (delaysSpent ds) p) := by
  simp only [hostLoop, h, if_neg hd]

/-- A cycle in which the host's command is accepted. -/
theorem hostLoop_accepted {f : HostForm} {g : Bool} {p : HostPhase} {s : State} {i : Instr} {ds : List Nat} (n : Nat)
    (h : hostCommand f g p s = some i) (hd : ds.headD 0 = 0) (hc : cmdReady s = true) :
    hostLoop f g (n + 1) ds p s =
      thenRun s (drive (Inputs.offer (encode i)) s) (hostLoop f g n ds.tail (hostPhaseAfter i)) := by
  simp only [hostLoop, h, hd, hc, if_true]

/-- A cycle in which the host's command is offered and not accepted. -/
theorem hostLoop_held {f : HostForm} {g : Bool} {p : HostPhase} {s : State} {i : Instr} {ds : List Nat} (n : Nat)
    (h : hostCommand f g p s = some i) (hd : ds.headD 0 = 0) (hc : cmdReady s = false) :
    hostLoop f g (n + 1) ds p s = thenRun s (drive (Inputs.offer (encode i)) s) (hostLoop f g n ds p) := by
  simp only [hostLoop, h, hd, hc, if_true, Bool.false_eq_true, if_false]

/-! ### The trace of a buffer, and the host's choices -/

@[simp] theorem bufferTrace_nil (lead : List Bool) (u : Nat) (lastGap : Bool) :
    bufferTrace lead u lastGap [] = [] := rfl

@[simp] theorem bufferTrace_cons (lead : List Bool) (u : Nat) (lastGap : Bool) (b : Byte) (bs : List Byte) :
    bufferTrace lead u lastGap (b :: bs) =
      lead ++ byteTrace u (lastGap || !bs.isEmpty) b ++ bufferTrace lead u lastGap bs := rfl

theorem playable_cons_of_resolved {b : Byte} (bs : List Byte) (h : resolve b ≠ .unresolvable) :
    playable (b :: bs) = b :: playable bs := by
  simp [playable, h]

theorem playable_cons_of_unresolvable {b : Byte} (bs : List Byte) (h : resolve b = .unresolvable) :
    playable (b :: bs) = [] := by
  simp [playable, h]

/-- All that the host does about a GAP (60_exceptions.md R198, 92_eei_decisions.md D24). -/
theorem hostGap_cases (lastGap : Bool) (s : State) :
    (s.lastAct = .played ∧ (lastGap = true ∨ peekValid s = true) ∧ hostGap lastGap s = some (.gap 0 0)) ∨
    ((s.lastAct ≠ .played ∨ (lastGap = false ∧ peekValid s = false)) ∧ hostGap lastGap s = none) := by
  unfold hostGap charGap
  by_cases hp : s.lastAct = .played <;> cases lastGap <;> cases peekValid s <;> simp [hp]

theorem ldstr_of_fits {depth : Nat} {bs : List Byte} (h : bs.length ≤ depth) :
    ldstr depth bs = some (wrbufs 0 bs ++ [.load (BitVec.ofNat 12 bs.length) 0]) := by
  simp [ldstr, wrstr, h]

end Sys2Proof.Machine
end

