-- ==== Sys2Proof/Tests/Slice0.lean ====
section
/-! SUPPORT. Small tests, their expected results from the spec's vectors (95_test_vectors.md) and encodings
(30_encoding.md), and for each statement with hypotheses a concrete case that meets them. -/

namespace Sys2Proof.Tests

open Sys2Proof.Machine

/-! ### Small states -/

/-- The vectors' parameters: U = 2, `BUF_DEPTH` = 64. -/
def cfg2 : Config := { unitMs := 1, cyclesPerMs := 2, bufDepth := 64 }

/-- The reset state with those parameters. -/
def blank : State := { State.reset with cfg := cfg2 }

/-- Bytes at consecutive addresses. -/
def cells (a : Nat) : List Byte → List Host.Cell
  | []      => []
  | b :: bs => (a, b) :: cells (a + 1) bs

/-- Idle, holding a buffer of the bytes `bs`, the cursor at `cur`. -/
def holding (bs : List Byte) (cur : Addr) : State :=
  { blank with buf := cells 0 bs, len := BitVec.ofNat 12 bs.length, cur := cur }

/-- The word `w` is offered at the next edge. -/
def offering (w : Word) (s : State) : State := { s with inputs := [Inputs.offer w] }

/-- Reset is asserted at the next edge, with a command offered, and then the samples `l`. -/
def resetting (l : List Inputs) (s : State) : State :=
  { s with inputs := { rst := true, cmdValid := true, cmd := 0x40000000 } :: l }

/-- 'A' has just started (V-C2, cycle 4). -/
def playingA : State :=
  { holding [0x41] 1 with st := .mark, tmr := 1, pat := 0b00010, slen := 2, idx := 0, lastAct := .played }

/-- The finishing cycle of 'A' (V-C2, cycle 13), with the byte `b` behind it. -/
def finishingA (b : Byte) : State :=
  { holding [0x41, b] 1 with st := .mark, tmr := 0, pat := 0b00010, slen := 2, idx := 1, lastAct := .played }

/-- A GAP with one cycle to go. -/
def finishingGap : State := { holding [0x41] 1 with st := .cgap, tmr := 0, lastAct := .played }

/-- The next state, where there is one. -/
def nextOf (s : State) : Option State :=
  match step s with
  | .next t    => some t
  | .fault _   => none
  | .refused _ => none

/-- The model stops at the next edge, with this fault. -/
def faultOf (s : State) : Option Fault :=
  match step s with
  | .next _    => none
  | .fault f   => some f
  | .refused _ => none

/-! ### Well-formedness: each check refuses an ill-formed term (R92) -/

theorem test_wellFormed_wrbuf_out_of_range : Instr.wellFormed 64 (.wrbuf 64 0x41) = false := by decide
theorem test_wellFormed_load_out_of_range : Instr.wellFormed 64 (.load 65 0) = false := by decide
theorem test_wellFormed_last_legal :
    Instr.wellFormed 64 (.wrbuf 63 0x7A) = true ∧ Instr.wellFormed 64 (.load 64 0) = true := by decide

/-! ### Decoding: words written out from R81 and R92, and V-E -/

theorem test_decode_nop : decodeTableWord 32 0b00000000000010101011110011011110 = some (.nop 0xABC 0xDE) := by decide
theorem test_decode_wrbuf : decodeTableWord 32 0b00010000000000000011111101111010 = some (.wrbuf 63 0x7A) := by decide
theorem test_decode_load : decodeTableWord 32 0b00100000000000000000001111111111 = some (.load 3 0xFF) := by decide
theorem test_decode_peek : decodeTableWord 32 0b00110000000000000000000000000000 = some (.peek 0 0) := by decide
theorem test_decode_consume :
    decodeTableWord 32 0b01000000000011111111111111111111 = some (.consume 0xFFF 0xFF) := by decide
theorem test_decode_gap : decodeTableWord 32 0b01010000000000000000000000000000 = some (.gap 0 0) := by decide
theorem test_decode_reserved_op_first :
    checkedDecode 64 0x7FF00000 = .error .illegalOp ∧ checkedDecode 64 0xF0000000 = .error .illegalOp := ⟨rfl, rfl⟩
theorem test_decode_rsv_before_range :
    checkedDecode 64 0x101FFF41 = .error .rsvNonzero ∧ checkedDecode 64 0x5FF00000 = .error .rsvNonzero := ⟨rfl, rfl⟩
theorem test_decode_ranges :
    checkedDecode 64 0x10004041 = .error .addrRange ∧ checkedDecode 64 0x20004100 = .error .lenRange := ⟨rfl, rfl⟩

/-! ### One step of each command -/

/-- V-N2: a NOP in a finishing cycle; the operation ends and nothing else changes. -/
theorem test_nop_in_finishing_cycle :
    (nextOf (offering 0 (finishingA 0x42))).map (fun t => (t.st, t.cur, t.idx, t.lastAct)) =
      some (.idle, 1, 1, .played) := by decide

/-- V-W3: WRBUF over the byte at the cursor changes `status`. -/
theorem test_wrbuf_changes_status :
    status (holding [0x41] 0) = 0x04104 ∧
    (nextOf (offering 0x10000023 (holding [0x41] 0))).map status = some 0 := by decide

/-- V-E: WRBUF at A = 64 records ADDR_RANGE and writes nothing. -/
theorem test_wrbuf_out_of_range :
    (nextOf (offering 0x10004041 blank)).map (fun t => (t.errCode, t.errWord, t.buf)) =
      some (.addrRange, 0x10004041, []) := by decide

/-- V-L1: LOAD 5 in a halted buffer. -/
theorem test_load_restarts :
    (nextOf (offering 0x20000500 { holding [0x41, 0x42, 0x23, 0x43, 0x44] 2 with lastAct := .unresolvable })).map
      (fun t => (t.cur, t.len, t.lastAct)) = some (0, 5, .unresolvable) := by decide

/-- V-L4: LOAD 65 leaves `cur` and `len`. -/
theorem test_load_out_of_range :
    (nextOf (offering 0x20004100 (holding [0x41, 0x42, 0x43] 1))).map (fun t => (t.cur, t.len, t.errCode)) =
      some (1, 3, .lenRange) := by decide

/-- V-P2: PEEK upcases. -/
theorem test_peek_upcases :
    (nextOf (offering 0x30000000 (holding [0x65, 0x35] 0))).map (fun t => (t.rsp, t.cur)) = some (0x145, 0) := by
  decide

/-- V-P4: PEEK at an unresolvable byte. -/
theorem test_peek_unresolvable :
    (nextOf (offering 0x30000000 { holding [0x41, 0x42, 0x23] 2 with rsp := 0x141 })).map State.rsp = some 0 := by
  decide

/-- V-C, 'A'. -/
theorem test_consume_letter :
    (nextOf (offering 0x40000000 (holding [0x41] 0))).map (fun t => (t.cur, t.st, t.tmr, t.pat, t.slen, t.lastAct)) =
      some (1, .mark, 1, 0b00010, 2, .played) := by decide

/-- V-C, the space. -/
theorem test_consume_space :
    (nextOf (offering 0x40000000 (holding [0x20] 0))).map (fun t => (t.cur, t.st, t.tmr, t.lastAct)) =
      some (1, .word, 13, .silence) := by decide

/-- V-G1. -/
theorem test_gap_starts :
    (nextOf (offering 0x50000000 blank)).map (fun t => (t.st, t.tmr)) = some (.cgap, 5) := by decide

/-- V-E: GAP with a nonzero RSV starts nothing. -/
theorem test_gap_with_rsv :
    (nextOf (offering 0x5FF00000 blank)).map (fun t => (t.st, t.errCode)) = some (.idle, .rsvNonzero) := by decide

/-- V-X4: an error in the finishing cycle of a GAP. -/
theorem test_error_in_finishing_cycle :
    (nextOf (offering 0x60000000 finishingGap)).map (fun t => (t.st, t.errCode)) = some (.idle, .illegalOp) := by
  decide

/-- V-X1: the first error is kept. -/
theorem test_error_is_sticky :
    (nextOf (offering 0x20004100 { blank with errCode := .illegalOp, errWord := 0x70000000 })).map
      (fun t => (t.errCode, t.errWord)) = some (.illegalOp, 0x70000000) := by decide

/-- V-R3: a byte is unwritten after a reset. -/
theorem test_reset_empties_the_buffer :
    (nextOf (resetting [] playingA)).map (fun t => (t.st, t.cur, t.len, written t 0)) = some (.idle, 0, 0, false) := by
  decide

/-- V-L3: PEEK over a byte never written. -/
theorem test_unwritten_read :
    faultOf (offering 0x30000000 { blank with len := 2 }) = some (.unwrittenRead 0) := by decide

/-- V-C2, cycles 7 to 8: the dash of 'A' starts. -/
theorem test_gap_then_dash :
    (nextOf { playingA with st := .egap, tmr := 0 }).map (fun t => (t.st, t.tmr, t.idx)) = some (.mark, 5, 1) := by
  decide

/-- V-S. -/
theorem test_status_words :
    status blank = 0 ∧
    status { finishingA 0x20 with buf := cells 0 [0x41], len := 1 } = 0x10043 ∧
    status { playingA with st := .egap } = 0x20041 ∧
    status { holding [0x65, 0x20, 0x35] 1 with st := .cgap, lastAct := .played } = 0x42045 ∧
    status { holding [0x65, 0x20, 0x35] 2 with st := .word, lastAct := .silence } = 0x33535 ∧
    status { holding [0x65] 1 with lastAct := .played, errCode := .illegalOp } = 0x100048 := by decide

/-- The word placed by `withFetchWord` runs at the very next step, from reset and from inside an operation. -/
theorem test_withFetchWord :
    (nextOf (blank.withFetchWord 32 0x50000000)).map State.st = some .cgap ∧
    (nextOf (playingA.withFetchWord 32 0x20000100)).map (fun t => (t.st, t.cur)) = some (.idle, 0) := by decide

/-- A delay is spent before the word is offered, and an offer is held until it is accepted (R196, R197). -/
theorem test_program_cycle :
    programInputs [⟨1, 0x40000000⟩] = Inputs.quiet ∧ programAfter true [⟨1, 0x40000000⟩] = [⟨0, 0x40000000⟩] ∧
    programInputs [⟨0, 0x40000000⟩] = Inputs.offer 0x40000000 ∧
    programAfter false [⟨0, 0x40000000⟩] = [⟨0, 0x40000000⟩] ∧ programAfter true [⟨0, 0x40000000⟩] = [] := by decide

/-- R91, `LDSTR "AB"`. -/
theorem test_ldstr :
    (ldstr 64 [0x41, 0x42]).map (fun is => is.map encode) = some [0x10000041, 0x10000142, 0x20000200] ∧
    wrstr 64 63 [0x41, 0x42] = none := by decide

/-! ### Witnesses: a concrete case that meets the hypotheses of each statement, at the edges of its clauses -/

theorem witness_DecodeAndEncodeAgree : decode 0x10003F7A = .ok (.wrbuf 63 0x7A) := rfl

/-- The words of V-E and R92 at the edges: OP 5 and 6, RSV 0 and 1, A 63, 64 and 65, `BUF_DEPTH` 64. -/
theorem witness_FirstFailingCheckNamesTheError :
    let op (w : Word) := w.toNat / 2 ^ 28
    let rsv (w : Word) := w.toNat / 2 ^ 20 % 2 ^ 8
    let a (w : Word) := w.toNat / 2 ^ 8 % 2 ^ 12
    (6 ≤ op 0x60000000 ∧ 6 ≤ op 0xFFFFFFFF) ∧ (op 0x50100000 ≤ 5 ∧ rsv 0x50100000 ≠ 0) ∧
    (op 0x10004041 = 1 ∧ rsv 0x10004041 = 0 ∧ 64 ≤ a 0x10004041) ∧
    (op 0x20004100 = 2 ∧ rsv 0x20004100 = 0 ∧ 64 < a 0x20004100) ∧
    (op 0x000FFFFF = 0 ∧ rsv 0x000FFFFF = 0) ∧
    (op 0x10003F7A = 1 ∧ rsv 0x10003F7A = 0 ∧ a 0x10003F7A < 64) ∧
    (op 0x20004000 = 2 ∧ rsv 0x20004000 = 0 ∧ a 0x20004000 ≤ 64) ∧
    (op 0x30000000 = 3 ∧ rsv 0x30000000 = 0) ∧ (op 0x40000000 = 4 ∧ rsv 0x40000000 = 0) ∧
    (op 0x50000000 = 5 ∧ rsv 0x50000000 = 0) := by decide

theorem witness_UnusedFieldsDoNotMatter : (64 : Addr).toNat ≤ blank.cfg.bufDepth := by decide

theorem witness_ResetEdgeGivesResetState :
    (sampled (resetting [] playingA)).rst = true ∧ ∃ t, step (resetting [] playingA) = .next t := ⟨rfl, _, rfl⟩

theorem witness_HeldResetAcceptsNothing :
    (∃ t, (sampled (resetting [{ rst := true, cmdValid := true, cmd := 0x50000000 }] playingA)).rst = true ∧
      step (resetting [{ rst := true, cmdValid := true, cmd := 0x50000000 }] playingA) = .next t ∧
      (sampled t).rst = true) ∧
    (∃ t, (sampled (resetting [Inputs.offer 0x50000000] playingA)).rst = true ∧
      step (resetting [Inputs.offer 0x50000000] playingA) = .next t ∧
      (sampled t).rst = false ∧ (sampled t).cmdValid = true ∧ decode (sampled t).cmd = .ok (.gap 0 0)) :=
  ⟨⟨_, rfl, rfl, rfl⟩, ⟨_, rfl, rfl, rfl, rfl, rfl⟩⟩

/-- An idle state that meets the invariant, with a command offered. -/
theorem idle_meets_invariant : Invariant (offering 0x40000000 (holding [0x41] 0)) where
  params    := by decide
  cursor    := by unfold CursorInBuffer; decide
  bufWf     := by decide
  bufFits   := by decide
  timer     := by decide
  latched   := .inl ⟨rfl, rfl⟩
  index     := .inr ⟨rfl, rfl⟩
  sounding  := by decide
  gapInside := by decide
  error     := fun _ => rfl
  result    := fun _ => rfl

/-- A state inside 'A' that meets the invariant. -/
theorem playing_meets_invariant : Invariant { playingA with st := .egap, tmr := 0 } where
  params    := by decide
  cursor    := by unfold CursorInBuffer; decide
  bufWf     := by decide
  bufFits   := by decide
  timer     := by decide
  latched   := .inr ⟨romL 0, .inl ⟨0, rfl⟩, rfl, rfl⟩
  index     := .inl (by decide)
  sounding  := by decide
  gapInside := by decide
  error     := fun _ => rfl
  result    := fun _ => rfl

theorem witness_EveryStepKeepsTheInvariant :
    (∃ s t, Invariant s ∧ step s = .next t ∧ t.st = .mark ∧ s.st = .idle) ∧
    (∃ s t, Invariant s ∧ step s = .next t ∧ t.st = .mark ∧ s.st = .egap) :=
  ⟨⟨_, _, idle_meets_invariant, rfl, rfl, rfl⟩, ⟨_, _, playing_meets_invariant, rfl, rfl, rfl⟩⟩

theorem witness_CursorNeverPassesTheEnd :
    (∃ t, (sampled (resetting [] playingA)).rst = true ∧ (resetting [] playingA).cfg.bufDepth ≤ 4095 ∧
      step (resetting [] playingA) = .next t) ∧
    (∃ s t, CursorInBuffer s ∧ step s = .next t ∧ t.cur ≠ s.cur ∧ t.cur.toNat = s.cur.toNat + 1) ∧
    (∃ s t, CursorInBuffer s ∧ step s = .next t ∧ t.cur ≠ s.cur ∧ t.cur = 0 ∧ t.len ≠ s.len) :=
  ⟨⟨_, rfl, by decide, rfl⟩, ⟨_, _, idle_meets_invariant.cursor, rfl, by decide, by decide⟩,
   ⟨offering 0x20004000 (holding [0x41] 1), _, by unfold CursorInBuffer; decide, rfl, by decide, by decide, by decide⟩⟩

theorem witness_NoIncrementWraps :
    (∃ s t, Invariant s ∧ step s = .next t ∧ acceptedCommand s = some (.consume 0 0) ∧ t.cur ≠ s.cur) ∧
    (∃ s t, Invariant s ∧ step s = .next t ∧ (sampled s).rst = false ∧ s.st = .egap ∧ s.tmr = 0) :=
  ⟨⟨_, _, idle_meets_invariant, rfl, by decide, by decide⟩, ⟨_, _, playing_meets_invariant, rfl, rfl, rfl, rfl⟩⟩

theorem witness_TimerWidthIsLeast : cfg2.Valid ∧ 7 * cfg2.unitCycles - 1 < 2 ^ 4 := by decide

theorem witness_ParametersNeverChange : ∃ t, step playingA = .next t := ⟨_, rfl⟩

theorem witness_StepRunsTheDecodedCommand :
    (let s := offering 0x40000000 (holding [0x41] 0)
     (sampled s).rst = false ∧ (sampled s).cmdValid = true ∧ cmdReady s = true ∧
       decode (sampled s).cmd = .ok (.consume 0 0) ∧ s.st = .idle) ∧
    (let s := offering 0x10003F7A (finishingA 0x42)
     (sampled s).rst = false ∧ (sampled s).cmdValid = true ∧ cmdReady s = true ∧
       decode (sampled s).cmd = .ok (.wrbuf 63 0x7A) ∧ s.st = .mark) :=
  ⟨⟨rfl, rfl, rfl, rfl, rfl⟩, ⟨rfl, rfl, rfl, rfl, rfl⟩⟩

theorem witness_ResetThenAdvanceThenCommand :
    (sampled (resetting [] playingA)).rst = true ∧
    ((sampled playingA).rst = false ∧ accepts (sampled playingA) playingA = false) ∧
    accepts (sampled (offering 0 blank)) (offering 0 blank) = true ∧
    accepts (sampled (offering 0 finishingGap)) (offering 0 finishingGap) = true := by decide

theorem witness_UnacceptedOffersLeaveNoTrace :
    (Inputs.offer 0x40000000).rst = (Inputs.offer 0x50000000).rst ∧
    accepts (Inputs.offer 0x40000000) playingA = false ∧ accepts (Inputs.offer 0x50000000) playingA = false := by
  decide

theorem witness_AdvanceFollowsTheSegmentOrder :
    (∀ s ∈ [playingA, { playingA with tmr := 0 }, finishingA 0x42, { playingA with st := .egap, tmr := 0 },
        { blank with st := .word }, finishingGap],
      s.st ≠ .idle ∧ (sampled s).rst = false ∧ accepts (sampled s) s = false) ∧
    playingA.tmr ≠ 0 ∧ playingA.idx.toNat + 1 < playingA.slen.toNat ∧
    (finishingA 0x42).slen.toNat ≤ (finishingA 0x42).idx.toNat + 1 := by decide

theorem witness_FinishingIsTheLastCycle :
    (playingA.st ≠ .idle ∧ finishing playingA = false) ∧ finishing (finishingA 0x42) = true ∧
    finishing finishingGap = true := by decide

theorem witness_OnlyResetStopsAnOperation :
    playingA.st ≠ .idle ∧ finishing playingA = false ∧ (sampled playingA).rst = false ∧
    finishing (resetting [] playingA) = false ∧ (sampled (resetting [] playingA)).rst = true := by decide

theorem witness_WrbufStoresExactlyItsByte :
    (63 : Addr).toNat < blank.cfg.bufDepth ∧
    ¬ (operandA 63 = (holding [0x41] 0).cur.toNat ∧ (holding [0x41] 0).cur.toNat < (holding [0x41] 0).len.toNat) := by
  decide

theorem witness_LoadStartsABuffer : (64 : Addr).toNat ≤ blank.cfg.bufDepth := by decide

theorem witness_RangeErrorsRecordTheWord :
    blank.cfg.bufDepth ≤ (64 : Addr).toNat ∧ blank.cfg.bufDepth < (65 : Addr).toNat := by decide

/-- Each range of PEEK and CONSUME at both ends: the byte stands at a cursor inside the buffer. -/
theorem bytes_at_the_cursor :
    ∀ b ∈ ([0x20, 0x30, 0x39, 0x41, 0x5A, 0x61, 0x7A, 0x00, 0x2F, 0x3A, 0x40, 0x5B, 0x60, 0x7B, 0xFF] : List Byte),
      (holding [b] 0).cur.toNat < (holding [b] 0).len.toNat ∧
      bufLookup (holding [b] 0).buf (holding [b] 0).cur.toNat = some b := by decide

theorem witness_PeekSamplesTheNextCharacter :
    (holding [] 0).len.toNat ≤ (holding [] 0).cur.toNat ∧
    (∀ b ∈ ([0x00, 0x2F, 0x3A, 0x40, 0x5B, 0x60, 0x7B, 0xFF] : List Byte), classify b = .unres) ∧
    (∀ b ∈ ([0x61, 0x7A] : List Byte), 0x61 ≤ b.toNat ∧ b.toNat ≤ 0x7A) ∧
    ({ blank with len := 2 }.cur.toNat < { blank with len := 2 }.len.toNat ∧
      written { blank with len := 2 } 0 = false) := by decide

theorem witness_PeekIsIdempotent : ∃ t, exec (.peek 0 0) (holding [0x65] 0) = .next t ∧ t.rsp = 0x145 := ⟨_, rfl, rfl⟩

theorem witness_ConsumeTakesItsFourCases :
    (holding [0x41] 1).len.toNat ≤ (holding [0x41] 1).cur.toNat ∧
    (0x5A : Byte).toNat = 0x41 + (25 : Fin 26).val ∧ (0x61 : Byte).toNat = 0x61 + (0 : Fin 26).val ∧
    (0x39 : Byte).toNat = 0x30 + (9 : Fin 10).val ∧ classify 0x5B = .unres ∧
    ({ blank with len := 1 }.cur.toNat < { blank with len := 1 }.len.toNat ∧
      written { blank with len := 1 } 0 = false) := by decide

theorem witness_ConsumeOfExhaustedBufferOnlyRecords : blank.len.toNat ≤ blank.cur.toNat := by decide

theorem witness_PeekAndConsumeAgree :
    blank.len.toNat ≤ blank.cur.toNat ∧ written (holding [0x41] 0) (holding [0x41] 0).cur.toNat = true := by decide

theorem witness_OnlyWrbufStores :
    (∀ a d, Instr.load 1 0 ≠ .wrbuf a d) ∧ ∃ t, exec (.load 1 0) (holding [0x41] 1) = .next t := ⟨nofun, _, rfl⟩

/-- Every register changes at some edge. -/
theorem witness_RegistersHaveOnlyTheirWriters :
    (∃ s t, step s = .next t ∧ t.st ≠ s.st ∧ t.tmr ≠ s.tmr ∧ t.pat ≠ s.pat ∧ t.slen ≠ s.slen ∧ t.cur ≠ s.cur ∧
      t.lastAct ≠ s.lastAct) ∧
    (∃ s t, step s = .next t ∧ t.idx ≠ s.idx) ∧
    (∃ s t, step s = .next t ∧ t.len ≠ s.len) ∧
    (∃ s t, step s = .next t ∧ t.buf ≠ s.buf) ∧
    (∃ s t, step s = .next t ∧ t.rsp ≠ s.rsp) ∧
    (∃ s t, step s = .next t ∧ t.errCode ≠ s.errCode ∧ t.errWord ≠ s.errWord) :=
  ⟨⟨offering 0x40000000 (holding [0x41] 0), _, rfl, by decide⟩,
   ⟨{ playingA with st := .egap, tmr := 0 }, _, rfl, by decide⟩,
   ⟨offering 0x20000300 blank, _, rfl, by decide⟩,
   ⟨offering 0x10000041 blank, _, rfl, by decide⟩,
   ⟨offering 0x30000000 (holding [0x41] 0), _, rfl, by decide⟩,
   ⟨offering 0x70000000 blank, _, rfl, by decide⟩⟩

/-- All four errors at the edges of their ranges, in IDLE with none recorded; one in a finishing cycle; one with another
recorded. -/
theorem witness_RejectedWordsOnlyRecord :
    let op (w : Word) := w.toNat / 2 ^ 28
    let rsv (w : Word) := w.toNat / 2 ^ 20 % 2 ^ 8
    let a (w : Word) := w.toNat / 2 ^ 8 % 2 ^ 12
    (∀ w, accepts (sampled (offering w blank)) (offering w blank) = true) ∧
    accepts (sampled (offering 0x60000000 finishingGap)) (offering 0x60000000 finishingGap) = true ∧
    (let s : State := { offering 0x60000000 blank with errCode := .addrRange, errWord := 0x10004041 }
     accepts (sampled s) s = true ∧ s.errCode ≠ .none) ∧
    6 ≤ op 0x60000000 ∧ (op 0x50100000 ≤ 5 ∧ rsv 0x50100000 ≠ 0) ∧
    (op 0x10004041 = 1 ∧ rsv 0x10004041 = 0 ∧ blank.cfg.bufDepth ≤ a 0x10004041) ∧
    (op 0x20004100 = 2 ∧ rsv 0x20004100 = 0 ∧ blank.cfg.bufDepth < a 0x20004100) ∧
    checkedDecode blank.cfg.bufDepth 0x20004100 = .error .lenRange :=
  ⟨fun _ => rfl, by decide, by decide, by decide, by decide, by decide, by decide, rfl⟩

theorem witness_FirstErrorIsKeptUntilReset :
    let s : State := { playingA with errCode := .illegalOp, errWord := 0x70000000 }
    (s.errCode ≠ .none ∧ (∃ t, step s = .next t) ∧ (sampled s).rst = false) ∧
    ((resetting [] s).errCode ≠ .none ∧ (∃ t, step (resetting [] s) = .next t) ∧
      (sampled (resetting [] s)).rst = true) :=
  ⟨⟨nofun, ⟨_, rfl⟩, rfl⟩, ⟨nofun, ⟨_, rfl⟩, rfl⟩⟩

theorem witness_ErrorsNeverBlock :
    Instr.wellFormed blank.cfg.bufDepth (.wrbuf 63 0) = true ∧ Instr.wellFormed blank.cfg.bufDepth (.load 64 0) = true ∧
    Instr.wellFormed blank.cfg.bufDepth (.gap 0 0) = true := by decide

theorem witness_OnlyUnwrittenReadsStop :
    let s := offering 0x30000000 { blank with len := 2 }
    step s = .fault (.unwrittenRead 0) ∧ s.cur.toNat < s.len.toNat ∧ written s s.cur.toNat = false ∧
      acceptedCommand s = some (.peek 0 0) := ⟨rfl, by decide, by decide, by decide⟩

theorem witness_SegmentLastsItsCount :
    playingA.st ≠ .idle ∧ playingA.tmr + 1 = 2 ∧ NoReset (2 - 1) playingA ∧
    ∃ t, core.run (2 - 1) playingA = .next t ∧ (sampled t).rst = false ∧ accepts (sampled t) t = false :=
  ⟨by decide, rfl, noReset_of_no_inputs _ rfl, _, rfl, rfl, rfl⟩

/-- A CONSUME of a letter, of a space, and a GAP, each about to be accepted. -/
theorem operations_about_to_start :
    (let s := offering 0x40000000 (holding [0x41] 0)
     s.cfg.Valid ∧ acceptedCommand s = some (.consume 0 0) ∧ s.cur.toNat < s.len.toNat ∧
       bufLookup s.buf s.cur.toNat = some 0x41 ∧ resolve 0x41 = .signal (romL 0) ∧
       (nextOf s).map State.inputs = some []) ∧
    (let s := offering 0x40000000 (holding [0x20] 0)
     s.cfg.Valid ∧ acceptedCommand s = some (.consume 0 0) ∧ s.cur.toNat < s.len.toNat ∧
       bufLookup s.buf s.cur.toNat = some 0x20 ∧ resolve 0x20 = .silence ∧
       (nextOf s).map State.inputs = some []) ∧
    (let s := offering 0x50000000 blank
     s.cfg.Valid ∧ acceptedCommand s = some (.gap 0 0) ∧ (nextOf s).map State.inputs = some []) := by decide

theorem witness_CharacterToneIsItsPattern :
    let s := offering 0x40000000 (holding [0x41] 0)
    s.cfg.Valid ∧ acceptedCommand s = some (.consume 0 0) ∧ s.cur.toNat < s.len.toNat ∧
      bufLookup s.buf s.cur.toNat = some 0x41 ∧ resolve 0x41 = .signal (romL 0) ∧
      ∃ t, step s = .next t ∧ NoReset (operationUnits (romL 0) * s.cfg.unitCycles - 1) t :=
  ⟨by decide, by decide, by decide, by decide, by decide, _, rfl, noReset_of_no_inputs _ rfl⟩

theorem witness_OperationLengths :
    (∃ t, step (offering 0x40000000 (holding [0x41] 0)) = .next t ∧ NoReset 9 t) ∧
    (∃ t, step (offering 0x40000000 (holding [0x20] 0)) = .next t ∧ NoReset 13 t) ∧
    (∃ t, step (offering 0x50000000 blank) = .next t ∧ NoReset 5 t) :=
  ⟨⟨_, rfl, noReset_of_no_inputs _ rfl⟩, ⟨_, rfl, noReset_of_no_inputs _ rfl⟩, ⟨_, rfl, noReset_of_no_inputs _ rfl⟩⟩

theorem witness_SpaceIsSevenUnitsOfSilence :
    let s := offering 0x40000000 (holding [0x20] 0)
    s.cfg.Valid ∧ acceptedCommand s = some (.consume 0 0) ∧ s.cur.toNat < s.len.toNat ∧
      bufLookup s.buf s.cur.toNat = some 0x20 ∧ ∃ t, step s = .next t ∧ NoReset (7 * s.cfg.unitCycles - 1) t :=
  ⟨by decide, by decide, by decide, by decide, _, rfl, noReset_of_no_inputs _ rfl⟩

theorem witness_GapIsThreeUnitsOfSilence :
    let s := offering 0x50000000 blank
    s.cfg.Valid ∧ acceptedCommand s = some (.gap 0 0) ∧
      ∃ t, step s = .next t ∧ NoReset (3 * s.cfg.unitCycles - 1) t :=
  ⟨by decide, by decide, _, rfl, noReset_of_no_inputs _ rfl⟩

theorem witness_MissingGapMergesTones :
    let s := { offering 0x40000000 (finishingA 0x42) with len := 2 }
    s.st = .mark ∧ finishing s = true ∧ acceptedCommand s = some (.consume 0 0) ∧ s.cur.toNat < s.len.toNat ∧
      bufLookup s.buf s.cur.toNat = some 0x42 ∧ resolve 0x42 = .signal (romL 1) := by decide

/-- The letter of a buffer of one byte (the cursor reaches the end), and of two; then any running state. -/
theorem witness_StatusShowsTheNextByteWhilePlaying :
    (let s := offering 0x40000000 (holding [0x41] 0)
     acceptedCommand s = some (.consume 0 0) ∧ s.cur.toNat < s.len.toNat ∧
       bufLookup s.buf s.cur.toNat = some 0x41 ∧ resolve 0x41 ≠ .unresolvable ∧ s.cur.toNat + 1 = s.len.toNat) ∧
    (let s := offering 0x40000000 (holding [0x41, 0x62] 0)
     acceptedCommand s = some (.consume 0 0) ∧ s.cur.toNat < s.len.toNat ∧
       bufLookup s.buf s.cur.toNat = some 0x41 ∧ s.cur.toNat + 1 < s.len.toNat ∧
       bufLookup s.buf (s.cur.toNat + 1) = some 0x62 ∧
       ∃ t, step s = .next t ∧ NoReset 2 t ∧ ∀ r ∈ observe cmdReady 2 t, r = false) ∧
    (NoReset 2 playingA ∧ (∀ r ∈ observe cmdReady 2 playingA, r = false) ∧
      playingA.len.toNat ≤ playingA.cur.toNat) :=
  ⟨by decide, ⟨by decide, by decide, by decide, by decide, by decide, _, rfl, noReset_of_no_inputs _ rfl, by decide⟩,
   noReset_of_no_inputs _ rfl, by decide, by decide⟩

/-- "AB#C" halted at '#'. -/
def halted : State := holding [0x41, 0x42, 0x23, 0x43] 2

/-- At the halt: a CONSUME, a PEEK, a WRBUF to another byte. -/
theorem witness_UnresolvableByteHalts :
    (halted.cur.toNat < halted.len.toNat ∧ bufLookup halted.buf halted.cur.toNat = some 0x23 ∧
      resolve 0x23 = .unresolvable) ∧
    (acceptedCommand (offering 0x40000000 halted) = some (.consume 0 0) ∧
      (nextOf (offering 0x40000000 halted)).isSome = true) ∧
    (acceptedCommand (offering 0x30000000 halted) = some (.peek 0 0) ∧
      (nextOf (offering 0x30000000 halted)).isSome = true) ∧
    (acceptedCommand (offering 0x10000041 halted) = some (.wrbuf 0 0x41) ∧ (0 : Addr) ≠ halted.cur ∧
      (nextOf (offering 0x10000041 halted)).isSome = true) := by decide

theorem witness_StatusFieldsAreInPlace :
    (holding [0x41] 1).len.toNat ≤ (holding [0x41] 1).cur.toNat ∧
    ((holding [0x41] 0).cur.toNat < (holding [0x41] 0).len.toNat ∧
      bufLookup (holding [0x41] 0).buf (holding [0x41] 0).cur.toNat = some 0x41) := by decide

theorem witness_BusyAndReadyMeetOnlyWhenFinishing : finishing playingA = false ∧ finishing blank = false := by decide

theorem witness_RomEntriesAreWellShaped :
    IsEntry (romL 4) ∧ IsEntry (romD 0) ∧ (entrySlen (romL 4)).toNat ≤ 1 ∧ (entrySlen (romD 0)).toNat ≤ 5 ∧
    romL 3 = romL 3 := ⟨.inl ⟨4, rfl⟩, .inr ⟨0, rfl⟩, by decide, by decide, rfl⟩

/-- A string that fills the buffer, the empty string, and one a byte too long. -/
theorem witness_LdstrHandsOverABuffer :
    let s : State := { blank with cfg := { cfg2 with bufDepth := 2 } }
    s.st = .idle ∧ s.cfg.bufDepth ≤ 4095 ∧ [0x41#8, 0x42].length ≤ s.cfg.bufDepth ∧
      ([] : List Byte).length ≤ s.cfg.bufDepth ∧ s.cfg.bufDepth < [0x41#8, 0x42, 0x43].length ∧
      [HostOffer.mk 0 0x10000041, ⟨3, 0x10000142⟩, ⟨1, 0x20000200⟩].map HostOffer.word =
        (((ldstr 2 [0x41, 0x42]).getD []).map encode) := by decide

/-- `Remaining` of a buffer of three bytes, the cursor at 0. -/
theorem remaining_three (b c d : Byte) : Remaining (holding [b, c, d] 0) [b, c, d] := by
  refine ⟨rfl, fun i x hx => ?_⟩
  match i, hx with
  | 0, hx => exact hx
  | 1, hx => exact hx
  | 2, hx => exact hx

theorem witness_ExactlyNConsumesExhaustTheBuffer :
    let s := holding [0x65, 0x20, 0x35] 0
    s.cfg.Valid ∧ s.st = .idle ∧ s.cur = 0 ∧ Remaining s [0x65, 0x20, 0x35] ∧
      (∀ b ∈ ([0x65, 0x20, 0x35] : List Byte), resolve b ≠ .unresolvable) ∧
      [HostOffer.mk 0 0x40000000, ⟨7, 0x40000000⟩, ⟨0, 0x40000000⟩].map HostOffer.word =
        List.replicate 3 (encode (.consume 0 0)) ∧
      [HostOffer.mk 1 0x40000000, ⟨0, 0x40000000⟩, ⟨2, 0x40000000⟩, ⟨5, 0x30000000⟩].map HostOffer.word =
        List.replicate 3 (encode (.consume 0 0)) ++ [encode (.peek 0 0)] ∧
      (promptly (List.replicate 4 0x40000000)).map HostOffer.word = List.replicate 4 (encode (.consume 0 0)) :=
  ⟨by decide, rfl, rfl, remaining_three _ _ _, by decide, by decide, by decide, by decide⟩

/-- Offered early, in the finishing cycle and one cycle late: 'e' lasts 2 cycles, GAP 6. -/
theorem witness_LateOffersLengthenTheSilence :
    let s := holding [0x65, 0x35] 0
    s.cfg.Valid ∧ s.st = .idle ∧ Remaining s [0x65, 0x35] ∧ resolve 0x65 = .signal (romL 4) ∧
      resolve 0x35 = .signal (romD 5) ∧ operationUnits (romL 4) * s.cfg.unitCycles = 2 :=
  ⟨by decide, rfl, ⟨rfl, fun i x hx => match i, hx with | 0, hx => hx | 1, hx => hx⟩, by decide, by decide, by decide⟩

theorem witness_HostLoopPlaysTheBuffer :
    let s := holding [0x41, 0x23, 0x42] 0
    s.cfg.Valid ∧ s.st = .idle ∧ Remaining s [0x41, 0x23, 0x42] ∧ playable [0x41, 0x23, 0x42] = [0x41] :=
  ⟨by decide, rfl, remaining_three _ _ _, by decide⟩

theorem witness_LateHostLoopOnlyAddsSilence :
    let s := holding [0x41, 0x20, 0x42] 0
    s.cfg.Valid ∧ s.st = .idle ∧ Remaining s [0x41, 0x20, 0x42] ∧ playable [0x41, 0x20, 0x42] = [0x41, 0x20, 0x42] ∧
      playable [0x23, 0x41] = [] :=
  ⟨by decide, rfl, remaining_three _ _ _, by decide, by decide⟩

theorem witness_SosIsTwentySevenUnits :
    let s : State := { holding [0x53, 0x4F, 0x53] 0 with cfg := { cfg2 with unitMs := 200 } }
    s.cfg.Valid ∧ s.st = .idle ∧ s.cur = 0 ∧ s.len = 3 ∧ bufLookup s.buf 0 = some 0x53 ∧
      bufLookup s.buf 1 = some 0x4F ∧ bufLookup s.buf 2 = some 0x53 ∧ s.cfg.unitMs = 200 := by decide

theorem witness_WordSpacingIsTenUnits :
    let s := holding [0x65, 0x20, 0x35] 0
    s.cfg.Valid ∧ s.st = .idle ∧ Remaining s [0x65, 0x20, 0x35] ∧ resolve 0x65 = .signal (romL 4) ∧
      resolve 0x35 = .signal (romD 5) :=
  ⟨by decide, rfl, remaining_three _ _ _, by decide, by decide⟩

end Sys2Proof.Tests
end

section
/-! SUPPORT. What an accepted command and an edge can do to the state: the effects of the six commands said once, the
parameters, and the moves of the cursor (10_state.md R31 to R33, R51). -/

namespace Sys2Proof.Machine

variable {s t : State}

/-! ### The start of a character and of a word gap: the parameters and the cursor registers (42_playback.md R155) -/

@[simp] theorem startCharacter_cfg (e : BitVec 8) : (startCharacter e s).cfg = s.cfg := rfl
@[simp] theorem startCharacter_cur (e : BitVec 8) : (startCharacter e s).cur = s.cur + 1 := rfl
@[simp] theorem startCharacter_len (e : BitVec 8) : (startCharacter e s).len = s.len := rfl
@[simp] theorem startWordGap_cfg : (startWordGap s).cfg = s.cfg := rfl
@[simp] theorem startWordGap_cur : (startWordGap s).cur = s.cur + 1 := rfl
@[simp] theorem startWordGap_len : (startWordGap s).len = s.len := rfl

/-! ### The effects of the commands -/

/-- The next states of a command that runs in `s` and completes, each with the condition that selects it
(41_buffer_commands.md R123 to R127, 42_playback.md R155 and R161). -/
inductive CommandEffect (s : State) : Instr → State → Prop where
  | nop (a d) : CommandEffect s (.nop a d) s
  | wrbufStores (a d) (fits : a.toNat < s.cfg.bufDepth) :
      CommandEffect s (.wrbuf a d) (bufWrite s a.toNat d)
  | wrbufOutOfRange (a d) (beyond : s.cfg.bufDepth ≤ a.toNat) :
      CommandEffect s (.wrbuf a d) (recordError .addrRange (encode (.wrbuf a d)) s)
  | loadStarts (a d) (fits : a.toNat ≤ s.cfg.bufDepth) :
      CommandEffect s (.load a d) { s with len := a, cur := 0 }
  | loadOutOfRange (a d) (beyond : s.cfg.bufDepth < a.toNat) :
      CommandEffect s (.load a d) (recordError .lenRange (encode (.load a d)) s)
  | peekExhausted (a d) (ended : s.len.toNat ≤ s.cur.toNat) :
      CommandEffect s (.peek a d) { s with rsp := 0 }
  | peekSamples (a d b) (inside : s.cur.toNat < s.len.toNat) (byte : bufLookup s.buf s.cur.toNat = some b) :
      CommandEffect s (.peek a d) { s with rsp := peekByte b }
  | consumeExhausted (a d) (ended : s.len.toNat ≤ s.cur.toNat) :
      CommandEffect s (.consume a d) { s with lastAct := .exhausted }
  | consumeSpace (a d b) (inside : s.cur.toNat < s.len.toNat) (byte : bufLookup s.buf s.cur.toNat = some b)
      (space : resolve b = .silence) : CommandEffect s (.consume a d) (startWordGap s)
  | consumeSignal (a d b e) (inside : s.cur.toNat < s.len.toNat) (byte : bufLookup s.buf s.cur.toNat = some b)
      (signal : resolve b = .signal e) : CommandEffect s (.consume a d) (startCharacter e s)
  | consumeHalts (a d b) (inside : s.cur.toNat < s.len.toNat) (byte : bufLookup s.buf s.cur.toNat = some b)
      (unres : resolve b = .unresolvable) : CommandEffect s (.consume a d) { s with lastAct := .unresolvable }
  | gap (a d) : CommandEffect s (.gap a d) (startSegment .cgap (3 * s.cfg.unitCycles) s)

/-- A command that completes has one of its effects. -/
theorem commandEffect_of_exec {i : Instr} (h : exec i s = .next t) : CommandEffect s i t := by
  cases i with
  | nop a d => cases h; exact .nop a d
  | wrbuf a d =>
    rcases execWrbuf_cases a d s with ⟨hr, e⟩ | ⟨hr, e⟩ <;> cases e.symm.trans h
    · exact .wrbufStores a d hr
    · exact .wrbufOutOfRange a d hr
  | load a d =>
    rcases execLoad_cases a d s with ⟨hr, e⟩ | ⟨hr, e⟩ <;> cases e.symm.trans h
    · exact .loadStarts a d hr
    · exact .loadOutOfRange a d hr
  | peek a d =>
    rcases execPeek_cases a d s with ⟨hc, e⟩ | ⟨hc, b, hb, e⟩ | ⟨_, _, e⟩ <;> cases e.symm.trans h
    · exact .peekExhausted a d hc
    · exact .peekSamples a d b hc hb
  | consume a d =>
    rcases execConsume_cases a d s with ⟨hc, e⟩ | ⟨hc, b, hb, e⟩ | ⟨_, _, e⟩ <;> cases e.symm.trans h
    · exact .consumeExhausted a d hc
    · cases hres : resolve b with
      | silence => rw [consumeByte_of_silence hres]; exact .consumeSpace a d b hc hb hres
      | signal e => rw [consumeByte_of_signal hres]; exact .consumeSignal a d b e hc hb hres
      | unresolvable => rw [consumeByte_of_unresolvable hres]; exact .consumeHalts a d b hc hb hres
  | gap a d => cases h; exact .gap a d

/-! ### The reset edge -/

/-- A reset edge gives the reset state (70_reset_and_hazards.md R210). -/
theorem step_of_reset (hr : (sampled s).rst = true) : step s = .next (resetState (tick s)) := by
  simp [step, edge, hr]

/-! ### The parameters -/

/-- No command writes a parameter. -/
theorem CommandEffect.cfg_eq {i : Instr} (h : CommandEffect s i t) : t.cfg = s.cfg := by
  cases h <;> simp

/-- No edge writes a parameter (10_state.md R51). -/
theorem step_cfg (h : step s = .next t) : t.cfg = s.cfg := by
  rcases step_cases s with ⟨_, e⟩ | ⟨_, _, _, e⟩ | ⟨_, i, _, e⟩ | ⟨_, _, e⟩
  · cases e.symm.trans h; simp
  · cases e.symm.trans h; simp
  · simpa using (commandEffect_of_exec (e.symm.trans h)).cfg_eq
  · cases e.symm.trans h; simp

/-! ### The moves of the cursor -/

/-- What may happen to `cur` and `len` between `s` and `t` (the writers of 10_state.md R31 and R32): both stay, the
cursor passes one byte of the buffer, or a buffer of a length that fits starts at its first byte. -/
inductive CursorMove (s t : State) : Prop where
  | stays (cur : t.cur = s.cur) (len : t.len = s.len)
  | passes (inside : s.cur.toNat < s.len.toNat) (cur : t.cur = s.cur + 1) (len : t.len = s.len)
  | restarts (cur : t.cur = 0) (fits : t.len.toNat ≤ s.cfg.bufDepth)

/-- CONSUME of a resolvable byte passes it, LOAD of a legal length restarts, every other effect leaves the cursor. -/
theorem CommandEffect.cursorMove {i : Instr} (h : CommandEffect s i t) : CursorMove s t := by
  cases h with
  | loadStarts a d fits => exact .restarts rfl fits
  | consumeSpace a d b inside => exact .passes inside rfl rfl
  | consumeSignal a d b e inside => exact .passes inside rfl rfl
  | _ => exact .stays (by simp) (by simp)

/-- The advance before a command leaves what a cursor move speaks of. -/
theorem cursorMove_of_advanced_tick (h : CursorMove (advanced (tick s)) t) : CursorMove s t := by
  cases h with
  | stays cur len => exact .stays (by simpa using cur) (by simpa using len)
  | passes inside cur len => exact .passes (by simpa using inside) (by simpa using cur) (by simpa using len)
  | restarts cur fits => exact .restarts cur (by simpa using fits)

/-- Every edge makes one of the cursor moves. -/
theorem step_cursorMove (h : step s = .next t) : CursorMove s t := by
  rcases step_cases s with ⟨_, e⟩ | ⟨_, _, _, e⟩ | ⟨_, i, _, e⟩ | ⟨_, _, e⟩
  · cases e.symm.trans h; exact .restarts (by simp) (by simp)
  · cases e.symm.trans h; exact .stays (by simp) (by simp)
  · exact cursorMove_of_advanced_tick (commandEffect_of_exec (e.symm.trans h)).cursorMove
  · cases e.symm.trans h; exact .stays (by simp) (by simp)

/-- A byte below another is not the last one, so its increment does not wrap. -/
theorem toNat_add_one_of_lt {a b : Addr} (h : a.toNat < b.toNat) : (a + 1).toNat = a.toNat + 1 := by
  bv_omega

/-- A cursor move keeps the cursor invariant (10_state.md R33). -/
theorem CursorMove.keeps_cursorInBuffer (h : CursorMove s t) (hcfg : t.cfg = s.cfg) (hs : CursorInBuffer s) :
    CursorInBuffer t := by
  obtain ⟨hcur, hlen, hdepth⟩ := hs
  unfold CursorInBuffer
  rw [hcfg]
  cases h with
  | stays cur len => rw [cur, len]; exact ⟨hcur, hlen, hdepth⟩
  | passes inside cur len => rw [cur, len, toNat_add_one_of_lt inside]; exact ⟨inside, hlen, hdepth⟩
  | restarts cur fits => rw [cur]; exact ⟨Nat.zero_le _, fits, hdepth⟩

/-! ### The reserved bits of `status` (10_state.md R42, R45)

Each lies in one of the three literal zero parts of the concatenation. -/

theorem status_getLsbD_seven (s : State) : (status s).getLsbD 7 = false := by
  simp only [status, BitVec.getLsbD_append]
  simp

theorem status_getLsbD_nineteen (s : State) : (status s).getLsbD 19 = false := by
  simp only [status, BitVec.getLsbD_append]
  simp

theorem status_getLsbD_of_le (s : State) {i : Nat} (h : 24 ≤ i) : (status s).getLsbD i = false := by
  have habove : ¬ i < 4 + (1 + (3 + (8 + (1 + (3 + (1 + (1 + (1 + 1)))))))) := by omega
  simp only [status, BitVec.getLsbD_append, habove, if_false]
  simp

end Sys2Proof.Machine
end

section
/-! The statements on the cursor, the parameters and the reserved bits of `status` (10_state.md). -/

namespace Sys2Proof.Machine

/-- Settles O9: every edge makes a `CursorMove`, and each of the three moves keeps `cur` within `len`; a reset edge
makes both 0. -/
theorem cursorNeverPassesTheEnd : Obligations.CursorNeverPassesTheEnd := by
  constructor
  · intro s t hr hdepth h
    cases (step_of_reset hr).symm.trans h
    exact ⟨rfl, rfl, Nat.le_refl 0, Nat.zero_le _, hdepth⟩
  · intro s t hs h
    have hcfg := step_cfg h
    have hmove := step_cursorMove h
    refine ⟨hmove.keeps_cursorInBuffer hcfg hs, ?_⟩
    cases hmove with
    | stays cur len => exact ⟨fun hne => absurd cur hne, fun hne => absurd len hne⟩
    | passes inside cur len =>
      exact ⟨fun _ => .inr ⟨inside, by rw [cur, toNat_add_one_of_lt inside]⟩, fun hne => absurd len hne⟩
    | restarts cur fits => exact ⟨fun _ => .inl cur, fun _ => ⟨by rw [hcfg]; exact fits, cur⟩⟩

/-- Settles O12: `cfg` has no writer, and both parameters are functions of it. -/
theorem parametersNeverChange : Obligations.ParametersNeverChange := by
  intro s t h
  rw [step_cfg h]
  exact ⟨rfl, rfl, rfl⟩

/-- Settles O43, bit by bit: 7, 19, and every bit from 24 on. -/
theorem statusReservedBitsAreZero : Obligations.StatusReservedBitsAreZero := by
  intro s
  have htop : (status s).extractLsb' 24 8 = 0 := BitVec.eq_of_getLsbD_eq fun i hi => by
    simp [-BitVec.getLsbD_eq_getElem, BitVec.getLsbD_extractLsb', status_getLsbD_of_le s (Nat.le_add_right 24 i)]
  exact ⟨status_getLsbD_seven s, status_getLsbD_nineteen s, htop⟩

end Sys2Proof.Machine
end

section
/-! SUPPORT. The fields of a word as parts of the number it is, and what the checks of 30_encoding.md R84 answer, one
lemma for each answer. -/

namespace Sys2Proof

variable {w : Word} {depth : Nat}

/-! ### The fields as numbers (30_encoding.md R81) -/

theorem opField_toNat (w : Word) : (opField w).toNat = w.toNat / 2 ^ 28 := by
  have hw : w.toNat < 2 ^ 32 := w.isLt
  rw [opField, BitVec.extractLsb'_toNat, Nat.shiftRight_eq_div_pow]
  exact Nat.mod_eq_of_lt (by omega)

theorem rsvField_toNat (w : Word) : (rsvField w).toNat = w.toNat / 2 ^ 20 % 2 ^ 8 := by
  rw [rsvField, BitVec.extractLsb'_toNat, Nat.shiftRight_eq_div_pow]

theorem aField_toNat (w : Word) : (aField w).toNat = w.toNat / 2 ^ 8 % 2 ^ 12 := by
  rw [aField, BitVec.extractLsb'_toNat, Nat.shiftRight_eq_div_pow]

theorem ofNat_aField_bits (w : Word) : BitVec.ofNat 12 (w.toNat / 2 ^ 8 % 2 ^ 12) = aField w := by
  rw [← aField_toNat, BitVec.ofNat_toNat, BitVec.setWidth_eq]

theorem ofNat_dField_bits (w : Word) : BitVec.ofNat 8 w.toNat = dField w := by
  apply BitVec.eq_of_toNat_eq
  rw [dField, BitVec.extractLsb'_toNat, Nat.shiftRight_zero, BitVec.toNat_ofNat]

theorem rsvField_eq_zero (h : w.toNat / 2 ^ 20 % 2 ^ 8 = 0) : rsvField w = 0 :=
  BitVec.eq_of_toNat_eq ((rsvField_toNat w).trans h)

theorem rsvField_ne_zero (h : w.toNat / 2 ^ 20 % 2 ^ 8 ≠ 0) : rsvField w ≠ 0 := fun h0 =>
  h (by rw [← rsvField_toNat, h0]; rfl)

/-! ### The opcode map (30_encoding.md R83, R86) -/

theorem commandOf_eq_none {op : BitVec 4} (h : 6 ≤ op.toNat) : commandOf op = none := by
  unfold commandOf
  split
  case h_7 => rfl
  all_goals omega

/-- The opcode map reads OP as a number. -/
theorem commandOf_of_toNat {op : BitVec 4} {n : Nat} (h : op.toNat = n) :
    commandOf op = commandOf (BitVec.ofNat 4 n) := by
  rw [← h, BitVec.ofNat_toNat, BitVec.setWidth_eq]

theorem exists_commandOf {op : BitVec 4} (h : op.toNat ≤ 5) : ∃ mk, commandOf op = some mk := by
  interval_cases hn : op.toNat <;> exact ⟨_, commandOf_of_toNat hn⟩

/-! ### The answers of the checks on OP and RSV (30_encoding.md R86, R87) -/

theorem decode_of_reserved_op (hop : 6 ≤ (opField w).toNat) : decode w = .error .illegalOp := by
  simp only [decode, commandOf_eq_none hop]

theorem decode_of_nonzero_rsv (hop : (opField w).toNat ≤ 5) (hrsv : rsvField w ≠ 0) :
    decode w = .error .rsvNonzero := by
  obtain ⟨mk, hmk⟩ := exists_commandOf hop
  simp only [decode, hmk, if_neg hrsv]

theorem decode_of_commandOf {mk : Addr → Byte → Instr} (hmk : commandOf (opField w) = some mk)
    (hrsv : rsvField w = 0) : decode w = .ok (mk (aField w) (dField w)) := by
  simp only [decode, hmk, if_pos hrsv]

/-! ### The range checks come last (30_encoding.md R84) -/

theorem checkedDecode_of_error {e : CmdError} (h : decode w = .error e) : checkedDecode depth w = .error e := by
  simp only [checkedDecode, h]

theorem checkedDecode_of_rangeError {i : Instr} {e : CmdError} (h : decode w = .ok i)
    (hr : rangeError depth i = some e) : checkedDecode depth w = .error e := by
  simp only [checkedDecode, h, hr]

theorem checkedDecode_of_inRange {i : Instr} (h : decode w = .ok i) (hr : rangeError depth i = none) :
    checkedDecode depth w = .ok i := by
  simp only [checkedDecode, h, hr]

end Sys2Proof
end

section
/-! The statement on the order of the checks (30_encoding.md section 2). -/

namespace Sys2Proof

/-- Settles O2: the checks on OP and RSV are `decode`'s; past them the word is the command of its row in the opcode map,
and only the rows of WRBUF and LOAD have a range to check. -/
theorem firstFailingCheckNamesTheError : Obligations.FirstFailingCheckNamesTheError := by
  intro depth w op rsv a A D
  have hop : (opField w).toNat = op := opField_toNat w
  have ha : (aField w).toNat = a := aField_toNat w
  have hA : A = aField w := ofNat_aField_bits w
  have hD : D = dField w := ofNat_dField_bits w
  have names {n : Nat} {mk : Addr → Byte → Instr} (row : commandOf (BitVec.ofNat 4 n) = some mk) (h : op = n)
      (hrsv : rsv = 0) : decode w = .ok (mk A D) := by
    rw [hA, hD]
    exact decode_of_commandOf ((commandOf_of_toNat (hop.trans h)).trans row) (rsvField_eq_zero hrsv)
  refine ⟨fun h => ?illegalOp, fun h hrsv => ?rsvNonzero, fun h hrsv hout => ?addrRange, fun h hrsv hout => ?lenRange,
    fun h hrsv => ?nop, fun h hrsv hin => ?wrbuf, fun h hrsv hin => ?load, fun h hrsv => ?peek,
    fun h hrsv => ?consume, fun h hrsv => ?gap⟩
  case illegalOp => exact checkedDecode_of_error (decode_of_reserved_op (hop ▸ h))
  case rsvNonzero => exact checkedDecode_of_error (decode_of_nonzero_rsv (hop ▸ h) (rsvField_ne_zero hrsv))
  case addrRange => exact checkedDecode_of_rangeError (names rfl h hrsv) (by simp [rangeError, hA, ha, hout])
  case lenRange => exact checkedDecode_of_rangeError (names rfl h hrsv) (by simp [rangeError, hA, ha, hout])
  case nop => exact checkedDecode_of_inRange (names rfl h hrsv) rfl
  case wrbuf => exact checkedDecode_of_inRange (names rfl h hrsv) (by simp [rangeError, hA, ha, hin])
  case load => exact checkedDecode_of_inRange (names rfl h hrsv) (by simp [rangeError, hA, ha, hin])
  case peek => exact checkedDecode_of_inRange (names rfl h hrsv) rfl
  case consume => exact checkedDecode_of_inRange (names rfl h hrsv) rfl
  case gap => exact checkedDecode_of_inRange (names rfl h hrsv) rfl

end Sys2Proof
end

section
/-! The alphabet: the class of a letter's two codes, and how long a ROM entry lasts (40_alphabet.md R101, R104, R107,
R109). -/

namespace Sys2Proof.Machine

/-! ### Both codes of a letter -/

theorem classify_of_uppercase {b : Byte} {i : Fin 26} (h : b.toNat = 0x41 + i.val) : classify b = .letter i := by
  have hU : 0x41 ≤ b.toNat ∧ b.toNat ≤ 0x5A := by omega
  rw [classify, dif_pos hU]
  simp [h]

theorem classify_of_lowercase {b : Byte} {i : Fin 26} (h : b.toNat = 0x61 + i.val) : classify b = .letter i := by
  have hU : ¬(0x41 ≤ b.toNat ∧ b.toNat ≤ 0x5A) := by omega
  have hL : 0x61 ≤ b.toNat ∧ b.toNat ≤ 0x7A := by omega
  rw [classify, dif_neg hU, dif_pos hL]
  simp [h]

theorem resolve_of_letter {b : Byte} {i : Fin 26} (h : classify b = .letter i) : resolve b = .signal (romL i) := by
  simp only [resolve, h]

theorem upcase_of_lowercase {b : Byte} (h : 0x61 ≤ b.toNat ∧ b.toNat ≤ 0x7A) : upcase b = b - 0x20 := by
  rw [upcase, if_pos h]

/-! ### The tables -/

theorem romL_slen_le_four (i : Fin 26) : (entrySlen (romL i)).toNat ≤ 4 := by
  revert i; decide

theorem romD_slen_eq_five (i : Fin 10) : (entrySlen (romD i)).toNat = 5 := by
  revert i; decide

theorem romL_ne_romD (i : Fin 26) (j : Fin 10) : romL i ≠ romD j := fun h => by
  have four := romL_slen_le_four i
  rw [h, romD_slen_eq_five j] at four
  omega

theorem romL_injective : Function.Injective romL := by
  have nodup : romLTable.toList.Nodup := by decide
  intro i j h
  exact Fin.ext ((nodup.getElem_inj_iff (hi := by simp) (hj := by simp)).mp h)

theorem romD_injective : Function.Injective romD := by
  have nodup : romDTable.toList.Nodup := by decide
  intro i j h
  exact Fin.ext ((nodup.getElem_inj_iff (hi := by simp) (hj := by simp)).mp h)

/-- R109 on the unused bits of PAT, as one bound on its value. -/
theorem isEntry_pat_lt {e : BitVec 8} (h : IsEntry e) : (entryPat e).toNat < 2 ^ (entrySlen e).toNat := by
  have letters : ∀ i, (entryPat (romL i)).toNat < 2 ^ (entrySlen (romL i)).toNat := by decide
  have digits : ∀ i, (entryPat (romD i)).toNat < 2 ^ (entrySlen (romD i)).toNat := by decide
  obtain ⟨i, rfl⟩ | ⟨i, rfl⟩ := h
  · exact letters i
  · exact digits i

theorem isEntry_pat_getLsbD {e : BitVec 8} (h : IsEntry e) {i : Nat} (hi : (entrySlen e).toNat ≤ i) :
    (entryPat e).getLsbD i = false :=
  Nat.testBit_lt_two_pow ((isEntry_pat_lt h).trans_le (Nat.pow_le_pow_right (by decide) hi))

/-! ### How long an entry lasts -/

@[simp] theorem playOrder_length (e : BitVec 8) : (playOrder e).length = (entrySlen e).toNat := by
  simp [playOrder]

/-- How many of the elements of an entry are dashes. -/
def dashes (e : BitVec 8) : Nat := (playOrder e).count true

theorem dashes_le_slen (e : BitVec 8) : dashes e ≤ (entrySlen e).toNat :=
  List.count_le_length.trans_eq (playOrder_length e)

theorem sum_elementUnits (l : List Bool) :
    (l.map fun dash => if dash then 3 else 1).sum = l.length + 2 * l.count true := by
  induction l with
  | nil => rfl
  | cons dash l ih => cases dash <;> simp [ih] <;> omega

theorem toneUnits_eq (e : BitVec 8) : toneUnits e = (entrySlen e).toNat + 2 * dashes e := by
  have tone : toneUnits e = ((playOrder e).map fun dash => if dash then 3 else 1).sum := by
    simp [toneUnits, playOrder, Function.comp_def]
  rw [tone, sum_elementUnits, playOrder_length, dashes]

/-- An element and the gap after it last 2 UNITs, and a dash 2 more; the last gap is not played. -/
theorem operationUnits_succ {e : BitVec 8} (h : IsEntry e) :
    operationUnits e + 1 = 2 * ((entrySlen e).toNat + dashes e) := by
  have pos := (isEntry_slen h).1
  rw [operationUnits, toneUnits_eq]
  omega

theorem operationUnits_le {e : BitVec 8} (h : IsEntry e) : operationUnits e ≤ 4 * (entrySlen e).toNat - 1 := by
  have units := operationUnits_succ h
  have dashes_le := dashes_le_slen e
  omega

theorem le_operationUnits {e : BitVec 8} (h : IsEntry e) : 2 * (entrySlen e).toNat - 1 ≤ operationUnits e := by
  have units := operationUnits_succ h
  omega

theorem romL_units_le (i : Fin 26) : operationUnits (romL i) ≤ 15 := by
  have le := operationUnits_le (.inl ⟨i, rfl⟩)
  have four := romL_slen_le_four i
  omega

theorem le_romD_units (i : Fin 10) : 9 ≤ operationUnits (romD i) := by
  have le := le_operationUnits (.inr ⟨i, rfl⟩)
  rwa [romD_slen_eq_five i] at le

theorem operationUnits_le_nineteen {e : BitVec 8} (h : IsEntry e) : operationUnits e ≤ 19 := by
  have le := operationUnits_le h
  have five := (isEntry_slen h).2
  omega

theorem operationUnits_ne_two {e : BitVec 8} (h : IsEntry e) : operationUnits e ≠ 2 := by
  have units := operationUnits_succ h
  omega

/-- Only E is one dot. Every digit is too long. -/
theorem operationUnits_eq_one_iff {e : BitVec 8} (h : IsEntry e) : operationUnits e = 1 ↔ e = romL 4 := by
  have letters : ∀ i, operationUnits (romL i) = 1 ↔ romL i = romL 4 := by decide
  obtain ⟨i, rfl⟩ | ⟨i, rfl⟩ := h
  · exact letters i
  · have long := le_romD_units i
    exact iff_of_false (by omega) (romL_ne_romD 4 i).symm

/-- Only I is two dots and only T is one dash. Every digit is too long. -/
theorem operationUnits_eq_three_iff {e : BitVec 8} (h : IsEntry e) :
    operationUnits e = 3 ↔ e = romL 8 ∨ e = romL 19 := by
  have letters : ∀ i, operationUnits (romL i) = 3 ↔ romL i = romL 8 ∨ romL i = romL 19 := by decide
  obtain ⟨i, rfl⟩ | ⟨i, rfl⟩ := h
  · exact letters i
  · have long := le_romD_units i
    exact iff_of_false (by omega) (not_or.mpr ⟨(romL_ne_romD 8 i).symm, (romL_ne_romD 19 i).symm⟩)

/-- Only 0 is five dashes. Every letter is too short. -/
theorem operationUnits_eq_nineteen_iff {e : BitVec 8} (h : IsEntry e) : operationUnits e = 19 ↔ e = romD 0 := by
  have digits : ∀ i, operationUnits (romD i) = 19 ↔ romD i = romD 0 := by decide
  obtain ⟨i, rfl⟩ | ⟨i, rfl⟩ := h
  · have short := romL_units_le i
    exact iff_of_false (by omega) (romL_ne_romD i 0)
  · exact digits i

end Sys2Proof.Machine
end

section
/-! The statements on the alphabet (40_alphabet.md R108, R109). -/

namespace Sys2Proof.Machine

/-- Settles O46: both codes of a letter are of its class, and they are 0x20 apart. -/
theorem lettersAreCaseInsensitive : Obligations.LettersAreCaseInsensitive := by
  intro i
  have upper : (BitVec.ofNat 8 (0x41 + i.val)).toNat = 0x41 + i.val := Nat.mod_eq_of_lt (by omega)
  have lower : (BitVec.ofNat 8 (0x61 + i.val)).toNat = 0x61 + i.val := Nat.mod_eq_of_lt (by omega)
  refine ⟨resolve_of_letter (classify_of_uppercase upper), resolve_of_letter (classify_of_lowercase lower), ?upcased⟩
  rw [upcase_of_lowercase (by omega)]
  bv_omega

/-- Settles O48: the shape is read off the two tables; the durations follow from the number of elements and of dashes,
which tells letters from digits and leaves a few entries for each length asked about. -/
theorem romEntriesAreWellShaped : Obligations.RomEntriesAreWellShaped :=
  ⟨fun _ h => ⟨(isEntry_slen h).1, (isEntry_slen h).2, fun _ => isEntry_pat_getLsbD h,
    operationUnits_le_nineteen h⟩, romL_slen_le_four, romD_slen_eq_five, fun _ _ h => romL_injective h,
    fun _ _ h => romD_injective h, romL_ne_romD, fun _ => operationUnits_eq_one_iff,
    fun _ => operationUnits_eq_three_iff, fun _ => operationUnits_ne_two, fun _ => operationUnits_eq_nineteen_iff⟩

end Sys2Proof.Machine
end

section
/-! SUPPORT. PEEK and CONSUME by the byte at the cursor (41_buffer_commands.md R126 to R128, 42_playback.md R155). -/

namespace Sys2Proof.Machine

variable {s : State} {b : Byte}

@[simp] theorem startCharacter_buf (e : BitVec 8) : (startCharacter e s).buf = s.buf := rfl
@[simp] theorem startCharacter_lastAct (e : BitVec 8) : (startCharacter e s).lastAct = .played := rfl
@[simp] theorem startWordGap_buf : (startWordGap s).buf = s.buf := rfl
@[simp] theorem startWordGap_lastAct : (startWordGap s).lastAct = .silence := rfl

/-! ### PEEK, and the peek fields of `status`, show what `peek()` gives -/

theorem peek_of_ended (ended : s.len.toNat ≤ s.cur.toNat) : peek s = .ok 0 := by
  simp [peek, exhausted, ended]

theorem peek_of_byte (inside : s.cur.toNat < s.len.toNat) (byte : bufLookup s.buf s.cur.toNat = some b) :
    peek s = .ok (peekByte b) := by
  simp [peek, exhausted, inside, cursorByte, bufRead, byte]

theorem exec_peek_of_ok {r : BitVec 9} (a : Addr) (d : Byte) (h : peek s = .ok r) :
    exec (.peek a d) s = .next { s with rsp := r } := by
  simp [exec, execPeek, h]

theorem peekValid_of_ok {r : BitVec 9} (h : peek s = .ok r) : peekValid s = r.getLsbD 8 := by
  simp [peekValid, peekFields, h]

theorem peekByte_valid_iff_resolvable (b : Byte) :
    (peekByte b).getLsbD 8 = true ↔ resolve b ≠ .unresolvable :=
  (peekByte_valid b).trans (not_congr (resolve_unresolvable_iff b)).symm

/-! ### CONSUME -/

theorem exec_consume_of_ended (a : Addr) (d : Byte) (ended : s.len.toNat ≤ s.cur.toNat) :
    exec (.consume a d) s = .next { s with lastAct := .exhausted } := by
  simp [exec, execConsume, exhausted, ended]

theorem exec_consume_of_byte (a : Addr) (d : Byte) (inside : s.cur.toNat < s.len.toNat)
    (byte : bufLookup s.buf s.cur.toNat = some b) : exec (.consume a d) s = .next (consumeByte b s) := by
  simp [exec, execConsume, exhausted, inside, cursorByte, bufRead, byte]

@[simp] theorem consumeByte_len (b : Byte) (s : State) : (consumeByte b s).len = s.len := by
  unfold consumeByte; split <;> rfl

@[simp] theorem consumeByte_buf (b : Byte) (s : State) : (consumeByte b s).buf = s.buf := by
  unfold consumeByte; split <;> rfl

theorem consumeByte_cur_iff (b : Byte) (s : State) :
    (consumeByte b s).cur = s.cur + 1 ↔ resolve b ≠ .unresolvable := by
  cases h : resolve b with
  | silence => simp [consumeByte_of_silence h]
  | signal e => simp [consumeByte_of_signal h]
  | unresolvable => simp [consumeByte_of_unresolvable h]

theorem consumeByte_lastAct_iff (b : Byte) (s : State) :
    ((consumeByte b s).lastAct = .silence ∨ (consumeByte b s).lastAct = .played) ↔ resolve b ≠ .unresolvable := by
  cases h : resolve b with
  | silence => simp [consumeByte_of_silence h]
  | signal e => simp [consumeByte_of_signal h]
  | unresolvable => simp [consumeByte_of_unresolvable h]

/-! ### CONSUME of the first of the bytes that remain -/

theorem Remaining.ended (h : Remaining s []) : s.len.toNat ≤ s.cur.toNat :=
  h.1.symm.le

/-- It moves the cursor by one, and the other bytes remain. -/
theorem exec_consume_of_remaining {bs : List Byte} (a : Addr) (d : Byte) (h : Remaining s (b :: bs))
    (hres : resolve b ≠ .unresolvable) :
    ∃ t, exec (.consume a d) s = .next t ∧ t.cur.toNat = s.cur.toNat + 1 ∧ Remaining t bs := by
  obtain ⟨length, bytes⟩ := h
  rw [List.length_cons] at length
  have inside : s.cur.toNat < s.len.toNat := by omega
  have cur : (consumeByte b s).cur.toNat = s.cur.toNat + 1 := by
    rw [(consumeByte_cur_iff b s).2 hres, toNat_add_one_of_lt inside]
  refine ⟨_, exec_consume_of_byte a d inside (bytes 0 b rfl), cur, ?length, fun i c hc => ?bytes⟩
  case length => rw [cur, consumeByte_len]; omega
  case bytes => rw [cur, consumeByte_buf, Nat.add_assoc, Nat.add_comm 1 i]; exact bytes (i + 1) c hc

end Sys2Proof.Machine
end

section
/-! SUPPORT. Runs of a command program whatever the host's delays: every operation ends, so every offered command is
accepted, and what the block's own cycles leave alone still holds then (42_playback.md R143, R145,
70_reset_and_hazards.md R225). -/

namespace Sys2Proof.Machine

variable {s : State}

/-! ### Every operation ends -/

/-- A bound on the segments of the running operation, with the one in progress: it needs no invariant, because a
character has at most 7 elements whatever `slen` holds. -/
def segmentsLeft (s : State) : Nat :=
  match s.st with
  | .idle => 0
  | .mark => 2 * (8 - s.idx.toNat)
  | .egap => 2 * (8 - (s.idx + 1).toNat) + 1
  | .word => 1
  | .cgap => 1

theorem segmentsLeft_pos (h : s.st ≠ .idle) : 0 < segmentsLeft s := by
  unfold segmentsLeft
  cases hs : s.st with
  | idle => exact absurd hs h
  | mark => have := s.idx.isLt; simp only; omega
  | _ => simp

/-- The end of a segment leaves fewer of them. -/
theorem segmentsLeft_endSegment_lt (h : s.st ≠ .idle) : segmentsLeft (endSegment s) < segmentsLeft s := by
  rcases endSegment_cases s with ⟨hi, _⟩ | ⟨hm, hmore, e⟩ | ⟨hg, e⟩ | ⟨_, e⟩
  · exact absurd hi h
  · have hidx : (s.idx + 1).toNat = s.idx.toNat + 1 := by
      have hmore : s.idx.toNat + 1 < s.slen.toNat := by simpa [moreElements] using hmore
      bv_omega
    have hlt := (s.idx + 1).isLt
    simp only [e, segmentsLeft, startSegment_st, startSegment_idx, hm, hidx]
    omega
  · simp [e, segmentsLeft, hg]
  · simpa [e, segmentsLeft] using segmentsLeft_pos h

/-- The state after a cycle in which the host drives something and nothing is accepted; also the one an accepted command
runs in (41_buffer_commands.md R120). -/
def coast (s : State) : State := advanced { s with inputs := [], draws := s.draws + 1 }

@[simp] theorem coast_cur : (coast s).cur = s.cur := advanced_cur _
@[simp] theorem coast_len : (coast s).len = s.len := advanced_len _
@[simp] theorem coast_buf : (coast s).buf = s.buf := advanced_buf _
@[simp] theorem coast_rsp : (coast s).rsp = s.rsp := advanced_rsp _
@[simp] theorem coast_lastAct : (coast s).lastAct = s.lastAct := advanced_lastAct _

/-- A cycle of a running operation ends a segment or counts. -/
theorem coast_decreases (h : s.st ≠ .idle) :
    Prod.Lex (· < ·) (· < ·) (segmentsLeft (coast s), (coast s).tmr) (segmentsLeft s, s.tmr) := by
  have busy : coast s = advance { s with inputs := [], draws := s.draws + 1 } := advanced_of_busy h
  by_cases ht : s.tmr = 0
  · rw [busy.trans (advance_of_tmr_zero ht)]
    exact .left _ _ (segmentsLeft_endSegment_lt (s := { s with inputs := [], draws := s.draws + 1 }) h)
  · rw [busy.trans (advance_of_tmr_ne ht)]
    exact .right _ (Nat.pred_lt ht)

/-- Induction along the cycles of the running operation: it ends. -/
theorem coast_induction {C : State → Prop} (h : ∀ s, (s.st ≠ .idle → C (coast s)) → C s) (s : State) : C s :=
  h s fun _ => coast_induction h (coast s)
termination_by (segmentsLeft s, s.tmr)
decreasing_by exact coast_decreases ‹_›

/-! ### One cycle of a program -/

/-- A cycle without reset runs the word it accepts, if it accepts one (41_buffer_commands.md R120). -/
theorem drive_eq {p : Inputs} (h : p.rst = false) :
    drive p s = if accepts p s then execWord p.cmd (coast s) else .next (coast s) := by
  change edge p _ = _
  rw [edge, if_neg (by simp [h])]
  rfl

theorem execWord_of_decode {w : Word} {i : Instr} (h : decode w = .ok i) : execWord w s = exec i s := by
  simp only [execWord, h]

/-- The run of a program ends in a state with `P`. -/
def ProgramEnds (os : List HostOffer) (s : State) (P : State → Prop) : Prop :=
  ∃ fuel tr t, runProgram fuel os s = some (tr, t) ∧ P t

/-- What the block does by itself keeps `P`. -/
def Stable (P : State → Prop) : Prop := ∀ s, P s → P (coast s)

variable {P I : State → Prop} {os : List HostOffer}

/-- The run ends as it does from the next cycle on. -/
theorem programEnds_of_cycle {t : State} (h : ¬ (os = [] ∧ s.st = .idle)) (hd : drive (programInputs os) s = .next t)
    (ends : ProgramEnds (programAfter (cmdReady s) os) t P) : ProgramEnds os s P := by
  obtain ⟨fuel, tr, u, run, hu⟩ := ends
  exact ⟨fuel + 1, toneOut s :: tr, u, by rw [runProgram_cycle fuel h, hd, thenRun, run]; rfl, hu⟩

/-- With every command accepted, the run ends when the last operation does. -/
theorem programEnds_nil (stable : Stable P) (hs : P s) : ProgramEnds [] s P := by
  induction s using coast_induction with
  | h s ih =>
    by_cases hi : s.st = .idle
    · exact ⟨1, [], s, runProgram_done 0 hi, hs⟩
    · exact programEnds_of_cycle (by simp [hi]) (drive_eq rfl) (ih hi (stable s hs))

/-- An offered command is accepted when the running operation ends, and the rest of the program follows it. -/
theorem programEnds_offer {w : Word} (stable : Stable I) (hs : I s)
    (next : ∀ t, I t → ∃ u, execWord w t = .next u ∧ ProgramEnds os u P) : ProgramEnds (⟨0, w⟩ :: os) s P := by
  induction s using coast_induction with
  | h s ih =>
    have hd := drive_eq (p := Inputs.offer w) (s := s) rfl
    cases hc : cmdReady s with
    | true =>
      obtain ⟨u, hu, ends⟩ := next _ (stable s hs)
      rw [if_pos (accepts_eq_true.2 ⟨rfl, rfl, hc⟩)] at hd
      exact programEnds_of_cycle (by simp) (hd.trans hu) (by rwa [hc])
    | false =>
      rw [accepts_of_not_ready hc] at hd
      have busy : s.st ≠ .idle := fun hi => by simp [cmdReady, hi] at hc
      exact programEnds_of_cycle (by simp) hd (by rw [hc]; exact ih busy (stable s hs))

/-- The host's delay before a command changes nothing that is stable. -/
theorem programEnds_cons {o : HostOffer} (stable : Stable I) (hs : I s)
    (next : ∀ t, I t → ∃ u, execWord o.word t = .next u ∧ ProgramEnds os u P) : ProgramEnds (o :: os) s P := by
  obtain ⟨wait, w⟩ := o
  induction wait generalizing s with
  | zero => exact programEnds_offer stable hs next
  | succ k ih => exact programEnds_of_cycle (by simp) (drive_eq rfl) (ih (stable s hs) next)

/-! ### A program of CONSUMEs -/

/-- `bs` remain from the cursor on, which is at `k`. -/
def RemainingFrom (k : Nat) (bs : List Byte) (s : State) : Prop := s.cur.toNat = k ∧ Remaining s bs

theorem remainingFrom_stable (k : Nat) (bs : List Byte) : Stable (RemainingFrom k bs) := fun _ h => by
  simpa [RemainingFrom, Remaining] using h

/-- One CONSUME for each of the first `n` bytes that remain, then what the host offers next. -/
theorem programEnds_of_consumes {n k : Nat} {bs : List Byte} {ws : List Word} (hs : RemainingFrom k bs s)
    (hres : ∀ b ∈ bs, resolve b ≠ .unresolvable) (hn : n ≤ bs.length)
    (hos : os.map HostOffer.word = List.replicate n (encode (.consume 0 0)) ++ ws)
    (next : ∀ os t, os.map HostOffer.word = ws → RemainingFrom (k + n) (bs.drop n) t → ProgramEnds os t P) :
    ProgramEnds os s P := by
  induction n generalizing s k bs os with
  | zero => exact next os s hos hs
  | succ n ih =>
    obtain _ | ⟨b, bs⟩ := bs
    · cases hn
    obtain ⟨o, os, rfl, ho, hos⟩ := List.map_eq_cons_iff.1 hos
    refine programEnds_cons (remainingFrom_stable k (b :: bs)) hs fun t ht => ?_
    obtain ⟨hcur, hrem⟩ := ht
    obtain ⟨u, hu, hcur', hrem'⟩ := exec_consume_of_remaining 0 0 hrem (hres b List.mem_cons_self)
    rw [hcur] at hcur'
    rw [ho, execWord_of_decode rfl]
    exact ⟨u, hu, ih ⟨hcur', hrem'⟩ (fun c hc => hres c (List.mem_cons_of_mem b hc)) (Nat.le_of_succ_le_succ hn) hos
      (by simpa [Nat.add_assoc, Nat.add_comm 1] using next)⟩

/-- One CONSUME for each byte that remains, then one more command, which finds the buffer exhausted. -/
theorem programEnds_of_consumes_all {k : Nat} {bs : List Byte} {w : Word} (hs : RemainingFrom k bs s)
    (hres : ∀ b ∈ bs, resolve b ≠ .unresolvable)
    (hos : os.map HostOffer.word = List.replicate bs.length (encode (.consume 0 0)) ++ [w]) (stable : Stable P)
    (last : ∀ t, t.cur.toNat = k + bs.length → t.len.toNat ≤ t.cur.toNat → ∃ u, execWord w t = .next u ∧ P u) :
    ProgramEnds os s P := by
  refine programEnds_of_consumes hs hres le_rfl hos fun os t hos ht => ?_
  obtain ⟨o, rfl, rfl⟩ := List.map_eq_singleton_iff.1 hos
  rw [List.drop_length] at ht
  refine programEnds_cons (remainingFrom_stable _ _) ht fun v ⟨hcur, hrem⟩ => ?_
  obtain ⟨u, hu, hP⟩ := last v hcur hrem.ended
  exact ⟨u, hu, programEnds_nil stable hP⟩

end Sys2Proof.Machine
end

section
/-! The statements on PEEK and CONSUME (41_buffer_commands.md R128, R129). -/

namespace Sys2Proof.Machine

/-- Settles O28: over a written byte the valid bit, the move of `cur` and `last_act` each say that the byte is
resolvable; in an exhausted buffer all three say no. -/
theorem peekAndConsumeAgree : Obligations.PeekAndConsumeAgree := by
  intro a d a' d' s h
  rcases Nat.lt_or_ge s.cur.toNat s.len.toNat with inside | ended
  · obtain ⟨b, byte⟩ := written_iff.1 (h.resolve_left (Nat.not_le_of_lt inside))
    have hpeek := peek_of_byte inside byte
    have valid := peekByte_valid_iff_resolvable b
    exact ⟨_, _, exec_peek_of_ok a d hpeek, exec_consume_of_byte a' d' inside byte,
      valid.trans (consumeByte_cur_iff b s).symm, valid.trans (consumeByte_lastAct_iff b s).symm,
      (peekValid_of_ok hpeek).symm⟩
  · have hpeek := peek_of_ended ended
    exact ⟨_, _, exec_peek_of_ok a d hpeek, exec_consume_of_ended a' d' ended,
      by simp, by simp, (peekValid_of_ok hpeek).symm⟩

/-- Settles O50, by induction on the CONSUMEs: each is accepted when the operation before it has ended, and passes one
byte; the command after the last byte finds `cur` at `len`. -/
theorem exactlyNConsumesExhaustTheBuffer : Obligations.ExactlyNConsumesExhaustTheBuffer := by
  intro s bs _ _ hcur hrem hres c
  have start : RemainingFrom 0 bs s := ⟨by simp [hcur], hrem⟩
  refine ⟨fun n os hn hos => ?first, fun os hos => ?peek, fun os hos => ?more⟩
  case first =>
    refine programEnds_of_consumes (ws := []) start hres hn (hos.trans (List.append_nil _).symm)
      fun os t hos ⟨hcur, _⟩ => ?_
    rw [List.map_eq_nil_iff.1 hos]
    exact programEnds_nil (P := fun t => t.cur.toNat = n) (fun _ h => by simpa using h)
      (hcur.trans (Nat.zero_add n))
  case peek =>
    refine programEnds_of_consumes_all (P := fun t => t.cur.toNat = bs.length ∧ t.rsp = 0) start hres hos
      (fun _ h => by simpa using h) fun t hcur ended => ?_
    exact ⟨_, exec_peek_of_ok 0 0 (peek_of_ended ended), hcur.trans (Nat.zero_add _), rfl⟩
  case more =>
    refine programEnds_of_consumes_all (P := fun t => t.cur.toNat = bs.length ∧ t.lastAct = .exhausted) start hres
      (by rw [← List.replicate_succ']; exact hos) (fun _ h => by simpa using h) fun t hcur ended => ?_
    exact ⟨_, exec_consume_of_ended 0 0 ended, hcur.trans (Nat.zero_add _), rfl⟩

end Sys2Proof.Machine
end

section
/-! SUPPORT. One edge of a running operation: how each segment ends, when the operation does, and that the host takes no
part in the advance (42_playback.md R143, R144, R151). -/

namespace Sys2Proof.Machine

variable {s : State}

/-! ### The end of a segment, case by case -/

theorem moreElements_eq_false : moreElements s = false ↔ s.slen.toNat ≤ s.idx.toNat + 1 := by
  simp [moreElements]

theorem advance_of_element (ht : s.tmr = 0) (hs : s.st = .mark) (hmore : s.idx.toNat + 1 < s.slen.toNat) :
    advance s = startSegment .egap s.cfg.unitCycles s := by
  simp [advance, ht, endSegment, hs, moreElements, hmore]

theorem advance_of_elementGap (ht : s.tmr = 0) (hs : s.st = .egap) :
    advance s =
      startSegment .mark (dur s.cfg.unitCycles s.pat (s.idx.toNat + 1)) { s with idx := s.idx + 1 } := by
  simp [advance, ht, endSegment, hs]

/-- The advance neither reads nor writes the samples of the host and the draw. -/
theorem advance_of_inputs_draws (s : State) (i : List Inputs) (d : Nat) :
    advance { s with inputs := i, draws := d } = { advance s with inputs := i, draws := d } := by
  by_cases ht : s.tmr = 0
  · cases hs : s.st with
    | mark =>
      by_cases hm : s.idx.toNat + 1 < s.slen.toNat
      · simp [advance, ht, endSegment, hs, moreElements, hm, startSegment]
      · simp [advance, ht, endSegment, hs, moreElements, hm]
    | _ => simp [advance, ht, endSegment, hs, startSegment]
  · simp [advance, ht]

/-! ### The last cycle and the others -/

theorem finishing_of_idle (hs : s.st = .idle) : finishing s = false := by
  simp [finishing, hs]

theorem cmdReady_of_busy (hs : s.st ≠ .idle) : cmdReady s = finishing s := by
  simp [cmdReady, hs]

/-- Only the advance of a finishing cycle ends the operation (42_playback.md R144). -/
theorem advance_st_eq_idle_iff (hs : s.st ≠ .idle) : (advance s).st = .idle ↔ finishing s = true := by
  refine ⟨fun h => ?_, fun h => by rw [advance_of_finishing h]⟩
  by_cases ht : s.tmr = 0
  · rw [advance_of_tmr_zero ht] at h
    rcases endSegment_cases s with ⟨hi, _⟩ | ⟨_, _, e⟩ | ⟨_, e⟩ | ⟨hlast, _⟩
    · exact absurd hi hs
    · simp [e] at h
    · simp [e] at h
    · exact finishing_eq_true.2 ⟨ht, hlast⟩
  · rw [advance_of_tmr_ne ht] at h
    exact absurd h hs

/-- An edge of a running operation that accepts nothing is its advance. -/
theorem step_of_busy (hs : s.st ≠ .idle) (hr : (sampled s).rst = false) (ha : accepts (sampled s) s = false) :
    step s = .next (advance (tick s)) := by
  rw [step_of_not_accepts hr ha, advanced_of_busy (by simpa using hs)]

/-- Before its finishing cycle an operation accepts nothing (42_playback.md R151). -/
theorem accepts_of_running (p : Inputs) (hs : s.st ≠ .idle) (hf : finishing s = false) : accepts p s = false :=
  accepts_of_not_ready ((cmdReady_of_busy hs).trans hf)

end Sys2Proof.Machine
end

section
/-! SUPPORT. What a running operation plays by itself to its end, cycle by cycle, and what is observed of it
(42_playback.md R146 to R150, R157 to R161). -/

namespace Sys2Proof.Machine

variable {s : State} {l : List Bool}

/-! ### What an operation plays by itself -/

/-- Left to itself, the operation that runs in `s` lasts as many cycles as `l` is long, with the tone `l` in them, and
the last of them is its finishing cycle. -/
inductive Plays : List Bool → State → Prop where
  | last {s : State} (hf : finishing s = true) : Plays [toneOut s] s
  | more {s : State} {l : List Bool} (hs : s.st ≠ .idle) (hf : finishing s = false) (rest : Plays l (advance s)) :
      Plays (toneOut s :: l) s

theorem Plays.st_ne_idle (h : Plays l s) : s.st ≠ .idle := by
  cases h with
  | last hf => exact fun hi => by simp [finishing_of_idle hi] at hf
  | more hs => exact hs

theorem Plays.length_pos (h : Plays l s) : 0 < l.length := by
  cases h <;> simp

/-- What an operation plays does not depend on what the host drives. -/
theorem Plays.of_inputs_draws (h : Plays l s) (i : List Inputs) (d : Nat) :
    Plays l { s with inputs := i, draws := d } := by
  induction h with
  | @last s hf => exact .last (s := { s with inputs := i, draws := d }) hf
  | @more s l hs hf _ ih =>
    exact .more (s := { s with inputs := i, draws := d }) hs hf (by rwa [advance_of_inputs_draws])

/-! ### Segments -/

variable {k : Nat}

/-- Before its last cycle a segment repeats its tone. -/
theorem plays_segment (hk : s.tmr + 1 = k) (last : Plays (toneOut s :: l) { s with tmr := 0 }) :
    Plays (List.replicate k (toneOut s) ++ l) s := by
  induction k generalizing s with
  | zero => cases hk
  | succ k ih =>
    cases Nat.succ.inj hk
    by_cases ht : s.tmr = 0
    · have same : { s with tmr := 0 } = s := by rw [← ht]
      rw [ht]
      rwa [same] at last
    · refine .more last.st_ne_idle (by simp [finishing, ht]) ?_
      rw [advance_of_tmr_ne ht]
      exact ih (s := { s with tmr := s.tmr - 1 }) (Nat.succ_pred ht) last

/-- The last segment of an operation, of `k` cycles. -/
theorem plays_lastSegment (hk : s.tmr + 1 = k)
    (hs : s.st = .word ∨ s.st = .cgap ∨ (s.st = .mark ∧ moreElements s = false)) :
    Plays (List.replicate k (toneOut s)) s := by
  rw [← List.append_nil (List.replicate k _)]
  exact plays_segment hk (.last (s := { s with tmr := 0 }) (finishing_eq_true.2 ⟨rfl, hs⟩))

/-- An element, with the gap and what follows it. -/
theorem plays_element (hk : s.tmr + 1 = k) (hs : s.st = .mark) (hmore : s.idx.toNat + 1 < s.slen.toNat)
    (rest : Plays l (startSegment .egap s.cfg.unitCycles s)) : Plays (List.replicate k true ++ l) s := by
  have tone : toneOut s = true := by simp [toneOut, hs]
  rw [← tone]
  refine plays_segment hk
    (.more (s := { s with tmr := 0 }) (by simp [hs]) (by simp [finishing, hs, moreElements, hmore]) ?_)
  have next : advance { s with tmr := 0 } = startSegment .egap s.cfg.unitCycles s := advance_of_element rfl hs hmore
  rwa [next]

/-- A gap inside a character, with the element and what follows it. -/
theorem plays_elementGap (hk : s.tmr + 1 = k) (hs : s.st = .egap)
    (rest : Plays l
      (startSegment .mark (dur s.cfg.unitCycles s.pat (s.idx.toNat + 1)) { s with idx := s.idx + 1 })) :
    Plays (List.replicate k false ++ l) s := by
  have tone : toneOut s = false := by simp [toneOut, hs]
  rw [← tone]
  refine plays_segment hk (.more (s := { s with tmr := 0 }) (by simp [hs]) (by simp [finishing, hs]) ?_)
  have next : advance { s with tmr := 0 } = _ := advance_of_elementGap rfl hs
  rwa [next]

/-! ### Operations -/

/-- The elements of a character from the one that starts on (42_playback.md R148). -/
theorem plays_elements {n : Nat} (hu : 1 ≤ s.cfg.unitCycles) (hs : s.st = .mark)
    (hk : s.tmr + 1 = dur s.cfg.unitCycles s.pat s.idx.toNat) (hn : s.idx.toNat + (n + 1) = s.slen.toNat) :
    Plays (elementTrace s.cfg.unitCycles s.pat s.idx.toNat (n + 1)) s := by
  induction n generalizing s with
  | zero =>
    have tone : toneOut s = true := by simp [toneOut, hs]
    rw [elementTrace_one, ← tone]
    exact plays_lastSegment hk (.inr (.inr ⟨hs, moreElements_eq_false.2 hn.ge⟩))
  | succ n ih =>
    have hidx : (s.idx + 1).toNat = s.idx.toNat + 1 := by bv_omega
    have next := ih (s := startSegment .mark (dur s.cfg.unitCycles s.pat (s.idx.toNat + 1)) { s with idx := s.idx + 1 })
      hu rfl (by rw [startSegment_idx, hidx]; exact Nat.sub_add_cancel (dur_pos hu _ _))
      (by rw [startSegment_idx, hidx]; exact (Nat.add_right_comm _ 1 _).trans hn)
    rw [startSegment_idx, hidx] at next
    rw [elementTrace_succ]
    exact plays_element hk hs (by omega) (plays_elementGap (Nat.sub_add_cancel hu) rfl next)

/-- A character plays the trace of its entry (42_playback.md R159). -/
theorem startCharacter_plays {e : BitVec 8} (hu : 1 ≤ s.cfg.unitCycles) (he : IsEntry e) :
    Plays (characterTrace s.cfg.unitCycles e) (startCharacter e s) := by
  obtain ⟨n, hn⟩ := Nat.exists_eq_add_of_le' (isEntry_slen he).1
  have hd := dur_pos hu (entryPat e) 0
  have elements := plays_elements (s := startCharacter e s) (n := n) hu rfl (Nat.sub_add_cancel hd)
    ((Nat.zero_add _).trans hn.symm)
  rw [characterTrace, hn]
  exact elements

/-- A space plays seven UNITs of silence (42_playback.md R157). -/
theorem startWordGap_plays (hu : 1 ≤ s.cfg.unitCycles) :
    Plays (List.replicate (7 * s.cfg.unitCycles) false) (startWordGap s) :=
  plays_lastSegment (s := startWordGap s) (Nat.sub_add_cancel (by omega)) (.inl rfl)

/-- A GAP plays three UNITs of silence (42_playback.md R161). -/
theorem startGap_plays (hu : 1 ≤ s.cfg.unitCycles) :
    Plays (List.replicate (3 * s.cfg.unitCycles) false) (startSegment .cgap (3 * s.cfg.unitCycles) s) :=
  plays_lastSegment (s := startSegment .cgap (3 * s.cfg.unitCycles) s) (Nat.sub_add_cancel (by omega))
    (.inr (.inl rfl))

/-! ### The trace of a character -/

theorem characterTrace_length (u : Nat) {e : BitVec 8} (he : IsEntry e) :
    (characterTrace u e).length = operationUnits e * u := by
  obtain ⟨n, hn⟩ := Nat.exists_eq_add_of_le' (isEntry_slen he).1
  rw [characterTrace, operationUnits, toneUnits, hn, elementTrace_length]
  simp

theorem characterTrace_count (u : Nat) {e : BitVec 8} (he : IsEntry e) :
    (characterTrace u e).count true = toneUnits e * u := by
  obtain ⟨n, hn⟩ := Nat.exists_eq_add_of_le' (isEntry_slen he).1
  rw [characterTrace, toneUnits, hn, elementTrace_count]
  simp

/-- A character of three dots or of three dashes. -/
theorem characterTrace_of_three_alike (u : Nat) {e : BitVec 8} {dash : Bool} (three : (entrySlen e).toNat = 3)
    (alike : ∀ i < 3, (entryPat e).getLsbD i = dash) :
    let mark := List.replicate (if dash then 3 * u else u) true
    let gap := List.replicate u false
    characterTrace u e = mark ++ gap ++ mark ++ gap ++ mark := by
  rw [characterTrace, three, elementTrace_succ, elementTrace_succ, elementTrace_one]
  simp [dur, -BitVec.getLsbD_eq_getElem, alike 0, alike 1, alike 2]

/-! ### What is observed of an operation -/

variable {n : Nat}

/-- Without reset the edges go through the cycles of the operation. -/
theorem Plays.next_cycle (h : Plays l (advance s)) (hs : s.st ≠ .idle) (hf : finishing s = false)
    (hr : NoReset l.length s) : ∃ t, step s = .next t ∧ Plays l t ∧ NoReset (l.length - 1) t := by
  rw [← Nat.succ_pred_eq_of_pos h.length_pos] at hr
  refine ⟨advance (tick s), step_of_busy hs hr.head (accepts_of_running _ hs hf), ?_, hr.tail (by simp)⟩
  rw [tick, advance_of_inputs_draws]
  exact h.of_inputs_draws _ _

theorem Plays.observe_toneOut (h : Plays l s) (hn : l.length = n) (hr : NoReset (n - 1) s) :
    observe toneOut n s = l := by
  subst hn
  induction l generalizing s with
  | nil => rfl
  | cons b l ih =>
    cases h with
    | last hf => exact observe_one _ _
    | more hs hf rest =>
      obtain ⟨t, ht, plays, noReset⟩ := rest.next_cycle hs hf hr
      rw [List.length_cons, observe_succ _ _ ht, ih plays noReset]

/-- An output that depends on no more than whether the cycle of the operation is the finishing one. -/
theorem Plays.observe_of_finishing {α : Type} {f : State → α} {g : Bool → α}
    (hfg : ∀ t, t.st ≠ .idle → f t = g (finishing t)) (h : Plays l s) (hn : l.length = n) (hr : NoReset (n - 1) s) :
    observe f n s = List.replicate (n - 1) (g false) ++ [g true] := by
  subst hn
  induction l generalizing s with
  | nil => exact absurd h.length_pos (Nat.lt_irrefl 0)
  | cons b l ih =>
    cases h with
    | last hf => simp [observe_one, hfg s (Plays.last hf).st_ne_idle, hf]
    | more hs hf rest =>
      obtain ⟨t, ht, plays, noReset⟩ := rest.next_cycle hs hf hr
      have pos := Nat.succ_pred_eq_of_pos plays.length_pos
      rw [List.length_cons, observe_succ _ _ ht, ih plays noReset, hfg s hs, hf, Nat.add_sub_cancel, ← pos]
      rfl

theorem Plays.observe_finishing (h : Plays l s) (hn : l.length = n) (hr : NoReset (n - 1) s) :
    observe finishing n s = List.replicate (n - 1) false ++ [true] :=
  h.observe_of_finishing (g := id) (fun _ _ => rfl) hn hr

theorem Plays.observe_cmdReady (h : Plays l s) (hn : l.length = n) (hr : NoReset (n - 1) s) :
    observe cmdReady n s = List.replicate (n - 1) false ++ [true] :=
  h.observe_of_finishing (g := id) (fun _ hs => cmdReady_of_busy hs) hn hr

theorem Plays.observe_busy (h : Plays l s) (hn : l.length = n) (hr : NoReset (n - 1) s) :
    observe busy n s = List.replicate n true := by
  have pos : n - 1 + 1 = n := Nat.sub_add_cancel (hn ▸ h.length_pos)
  rw [h.observe_of_finishing (g := fun _ => true) (fun t hs => by simp [busy, hs]) hn hr,
    ← List.replicate_succ', pos]

end Sys2Proof.Machine
end

section
/-! SUPPORT. The edge that accepts a command: the state the command runs in, and the operations it starts
(41_buffer_commands.md R120, 42_playback.md R145, R155, R161). -/

namespace Sys2Proof.Machine

variable {s : State} {b : Byte} {a : Addr} {d : Byte}

@[simp] theorem atAccept_cfg : (atAccept s).cfg = s.cfg := by simp [atAccept]
@[simp] theorem atAccept_cur : (atAccept s).cur = s.cur := by simp [atAccept]
@[simp] theorem atAccept_len : (atAccept s).len = s.len := by simp [atAccept]
@[simp] theorem atAccept_buf : (atAccept s).buf = s.buf := by simp [atAccept]

/-- An accepted word runs in the state the edge has advanced to. -/
theorem step_of_accepts (ha : accepts (sampled s) s = true) :
    step s = execWord (sampled s).cmd (atAccept s) := by
  simp [step, edge, ha, (accepts_eq_true.1 ha).1, atAccept]

theorem step_of_acceptedCommand {i : Instr} (h : acceptedCommand s = some i) : step s = exec i (atAccept s) := by
  unfold acceptedCommand at h
  split at h
  case isTrue ha =>
    rw [step_of_accepts ha]
    cases hd : decode (sampled s).cmd with
    | ok j => rw [hd] at h; cases h; exact execWord_of_decode hd
    | error e => simp [hd] at h
  case isFalse => cases h

/-- An accepted CONSUME takes the byte at the cursor. -/
theorem step_of_consume (h : acceptedCommand s = some (.consume a d))
    (inside : s.cur.toNat < s.len.toNat) (byte : bufLookup s.buf s.cur.toNat = some b) :
    step s = .next (consumeByte b (atAccept s)) := by
  rw [step_of_acceptedCommand h]
  exact exec_consume_of_byte a d (by simpa using inside) (by simpa using byte)

/-- At a letter or digit an accepted CONSUME starts the character (42_playback.md R155, R158). -/
theorem consume_plays_character {e : BitVec 8} (hv : s.cfg.Valid) (h : acceptedCommand s = some (.consume a d))
    (inside : s.cur.toNat < s.len.toNat) (byte : bufLookup s.buf s.cur.toNat = some b) (hres : resolve b = .signal e) :
    step s = .next (startCharacter e (atAccept s)) ∧
      Plays (characterTrace s.cfg.unitCycles e) (startCharacter e (atAccept s)) := by
  refine ⟨by rw [step_of_consume h inside byte, consumeByte_of_signal hres], ?_⟩
  rw [← atAccept_cfg]
  exact startCharacter_plays (by simpa using unitCycles_pos hv) (isEntry_of_resolve hres)

/-- At a space an accepted CONSUME starts seven UNITs of silence (42_playback.md R157). -/
theorem consume_plays_silence (hv : s.cfg.Valid) (h : acceptedCommand s = some (.consume a d))
    (inside : s.cur.toNat < s.len.toNat) (byte : bufLookup s.buf s.cur.toNat = some b) (hres : resolve b = .silence) :
    step s = .next (startWordGap (atAccept s)) ∧
      Plays (List.replicate (7 * s.cfg.unitCycles) false) (startWordGap (atAccept s)) := by
  refine ⟨by rw [step_of_consume h inside byte, consumeByte_of_silence hres], ?_⟩
  rw [← atAccept_cfg]
  exact startWordGap_plays (by simpa using unitCycles_pos hv)

/-- An accepted GAP starts three UNITs of silence (42_playback.md R161). -/
theorem gap_plays_silence (hv : s.cfg.Valid) (h : acceptedCommand s = some (.gap a d)) :
    step s = .next (startSegment .cgap (3 * s.cfg.unitCycles) (atAccept s)) ∧
      Plays (List.replicate (3 * s.cfg.unitCycles) false)
        (startSegment .cgap (3 * s.cfg.unitCycles) (atAccept s)) := by
  refine ⟨by rw [step_of_acceptedCommand h, ← atAccept_cfg (s := s)]; rfl, ?_⟩
  rw [← atAccept_cfg]
  exact startGap_plays (by simpa using unitCycles_pos hv)

end Sys2Proof.Machine
end

section
/-! The statements on playback (42_playback.md R143, R144, R150, R151, R156, R157, R159). -/

namespace Sys2Proof.Machine

/-- Settles O17: `finishing_eq_true`, and the advance of any other cycle of an operation leaves `st` from IDLE. -/
theorem finishingIsTheLastCycle : Obligations.FinishingIsTheLastCycle := by
  intro s
  refine ⟨?formula, fun hs => (advance_st_eq_idle_iff hs).symm, fun hf => by simp [cmdReady, hf]⟩
  rw [finishing_eq_true, moreElements_eq_false]
  refine ⟨fun ⟨ht, hs⟩ => ⟨?_, ht, hs⟩, fun ⟨_, ht, hs⟩ => ⟨ht, hs⟩⟩
  rcases hs with hs | hs | ⟨hs, -⟩ <;> simp [hs]

/-- Settles O26: an exhausted buffer gives CONSUME no byte to read. -/
theorem consumeOfExhaustedBufferOnlyRecords : Obligations.ConsumeOfExhaustedBufferOnlyRecords := by
  intro a d s ended
  have records := exec_consume_of_ended a d ended
  refine ⟨records, fun t ht => ?_⟩
  cases records.symm.trans ht
  exact ⟨rfl, rfl⟩

/-- Settles O16: such an edge is the advance, which counts, ends the operation or starts the next segment. -/
theorem advanceFollowsTheSegmentOrder : Obligations.AdvanceFollowsTheSegmentOrder := by
  intro s hs hr ha u s'
  rw [step_of_busy hs hr ha]
  have ends (ht : s.tmr = 0)
      (hlast : s.st = .word ∨ s.st = .cgap ∨ (s.st = .mark ∧ s.slen.toNat ≤ s.idx.toNat + 1)) :
      advance s' = { s' with st := .idle } := by
    rw [← moreElements_eq_false] at hlast
    exact advance_of_finishing (finishing_eq_true.2 ⟨ht, hlast⟩)
  refine ⟨fun ht => ?counts, fun ht hm hmore => ?gap, fun ht hm hlast => ?last, fun ht hg => ?element,
    fun ht hw => ?word, fun ht hc => ?cgap⟩
  case counts => rw [advance_of_tmr_ne (s := tick s) ht]; rfl
  case gap => rw [advance_of_element (s := tick s) ht hm hmore]; rfl
  case last => rw [ends ht (.inr (.inr ⟨hm, hlast⟩))]
  case element => rw [advance_of_elementGap (s := tick s) ht hg]; rfl
  case word => rw [ends ht (.inl hw)]
  case cgap => rw [ends ht (.inr (.inl hc))]

/-- Settles O18: a cycle of an operation that is not finishing is not ready, and its advance does not end it. -/
theorem onlyResetStopsAnOperation : Obligations.OnlyResetStopsAnOperation := by
  intro s hs hf
  have ha := accepts_of_running (sampled s) hs hf
  refine ⟨(cmdReady_of_busy hs).trans hf, ha, fun hr => ⟨_, step_of_busy hs hr ha, fun hi => ?_⟩,
    fun hr => ⟨_, step_of_reset hr, rfl, rfl⟩⟩
  have ended : finishing s = true := (advance_st_eq_idle_iff (s := tick s) hs).1 hi
  simp [hf] at ended

/-- Settles O36: the accept edge starts a character, which plays `characterTrace`. -/
theorem characterToneIsItsPattern : Obligations.CharacterToneIsItsPattern := by
  refine ⟨fun u => ⟨by decide, ?dots, by decide, ?dashes⟩, ?tone⟩
  case dots => simpa using characterTrace_of_three_alike u (e := romL 18) (dash := false) (by decide) (by decide)
  case dashes => simpa using characterTrace_of_three_alike u (e := romL 14) (dash := true) (by decide) (by decide)
  case tone =>
    intro s a d b e hv hc inside byte hres u n
    obtain ⟨start, plays⟩ := consume_plays_character hv hc inside byte hres
    have hn := characterTrace_length u (isEntry_of_resolve hres)
    exact ⟨_, start, fun hr => ⟨plays.observe_toneOut hn hr, plays.observe_cmdReady hn hr⟩⟩

/-- Settles O37: each operation plays a trace of its length, and the tone of a character is on in its elements. -/
theorem operationLengths : Obligations.OperationLengths := by
  intro s a d hv u
  refine ⟨fun hc inside b byte => ⟨fun e hres => ?character, fun hres => ?space⟩, fun hc => ?gap, by decide⟩
  case character =>
    obtain ⟨start, plays⟩ := consume_plays_character hv hc inside byte hres
    have hn := characterTrace_length u (isEntry_of_resolve hres)
    have tone := characterTrace_count u (isEntry_of_resolve hres)
    exact ⟨_, start, fun hr => ⟨plays.observe_busy hn hr, by rw [plays.observe_toneOut hn hr, tone],
      plays.observe_finishing hn hr⟩⟩
  case space =>
    obtain ⟨start, plays⟩ := consume_plays_silence hv hc inside byte hres
    have hn := List.length_replicate (n := 7 * u) (a := false)
    exact ⟨_, start, fun hr => ⟨plays.observe_busy hn hr, plays.observe_finishing hn hr⟩⟩
  case gap =>
    obtain ⟨start, plays⟩ := gap_plays_silence hv hc
    have hn := List.length_replicate (n := 3 * u) (a := false)
    exact ⟨_, start, fun hr => ⟨plays.observe_busy hn hr, plays.observe_finishing hn hr⟩⟩

/-- Settles O38: the accept edge starts the word gap, which moves the cursor and plays silence. -/
theorem spaceIsSevenUnitsOfSilence : Obligations.SpaceIsSevenUnitsOfSilence := by
  intro s a d hv hc inside byte n
  obtain ⟨start, plays⟩ := consume_plays_silence hv hc inside byte (by decide)
  have hn := List.length_replicate (n := n) (a := false)
  exact ⟨_, start, by simp, rfl, rfl, fun hr => ⟨plays.observe_toneOut hn hr, plays.observe_cmdReady hn hr⟩⟩

end Sys2Proof.Machine
end

section
/-! SUPPORT. The exceptional cases: the state a command is accepted in, and the error record, which no legal
command reads and only the first error writes (42_playback.md R145, 60_exceptions.md R182 to R186). -/

namespace Sys2Proof.Machine

variable {s t : State}

/-! ### The state an accepted command runs in -/

/-- A ready block is in IDLE, where the edge advances nothing, or in the finishing cycle of an operation. -/
theorem idle_or_finishing_of_ready (h : cmdReady s = true) :
    (s.st = .idle ∧ atAccept s = tick s) ∨ (finishing s = true ∧ atAccept s = advance (tick s)) := by
  by_cases hs : s.st = .idle
  · exact .inl ⟨hs, advanced_of_idle (s := tick s) hs⟩
  · exact .inr ⟨(cmdReady_of_busy hs).symm.trans h, advanced_of_busy (s := tick s) hs⟩

/-! ### A recorded error is kept (60_exceptions.md R183) -/

/-- A later range error of WRBUF or LOAD is not recorded, and no other effect touches the record. -/
theorem CommandEffect.keeps_recorded {i : Instr} (h : CommandEffect s i t) (recorded : s.errCode ≠ .none) :
    t.errCode = s.errCode ∧ t.errWord = s.errWord := by
  cases h with
  | wrbufOutOfRange | loadOutOfRange => rw [recordError_of_recorded s recorded]; exact ⟨rfl, rfl⟩
  | _ => exact ⟨rfl, rfl⟩

theorem step_keeps_recorded (hr : (sampled s).rst = false) (recorded : s.errCode ≠ .none) (h : step s = .next t) :
    t.errCode = s.errCode ∧ t.errWord = s.errWord := by
  have recorded' : (advanced (tick s)).errCode ≠ .none := by simpa using recorded
  rcases step_cases s with ⟨hr', _⟩ | ⟨_, _, _, e⟩ | ⟨_, _, _, e⟩ | ⟨_, _, e⟩
  · simp [hr] at hr'
  · rw [recordError_of_recorded _ recorded'] at e
    cases e.symm.trans h; simp
  · simpa using (commandEffect_of_exec (e.symm.trans h)).keeps_recorded recorded'
  · cases e.symm.trans h; simp

/-! ### The outcomes of WRBUF, LOAD, PEEK and CONSUME, by the condition that selects them -/

theorem exec_wrbuf_of_fits {a : Addr} (d : Byte) (fits : a.toNat < s.cfg.bufDepth) :
    exec (.wrbuf a d) s = .next (bufWrite s a.toNat d) :=
  if_pos fits

theorem exec_load_of_fits {a : Addr} (d : Byte) (fits : a.toNat ≤ s.cfg.bufDepth) :
    exec (.load a d) s = .next { s with len := a, cur := 0 } :=
  if_pos fits

theorem exec_peek_of_error {f : Fault} (a : Addr) (d : Byte) (h : peek s = .error f) :
    exec (.peek a d) s = .fault f := by
  simp [exec, execPeek, h]

theorem exec_consume_of_unwritten (a : Addr) (d : Byte) (inside : s.cur.toNat < s.len.toNat)
    (unwritten : bufLookup s.buf s.cur.toNat = none) :
    exec (.consume a d) s = .fault (.unwrittenRead s.cur.toNat) := by
  simp [exec, execConsume, exhausted, inside, cursorByte, bufRead, unwritten]

/-! ### The error record is not read (60_exceptions.md R184) -/

/-- What a byte does to CONSUME does not depend on the error record, and leaves it. -/
theorem consumeByte_of_error_record (b : Byte) (s : State) (c : ErrCode) (w : Word) :
    consumeByte b { s with errCode := c, errWord := w } = { consumeByte b s with errCode := c, errWord := w } := by
  cases h : resolve b with
  | silence => simp only [consumeByte_of_silence h]; rfl
  | signal e => simp only [consumeByte_of_signal h]; rfl
  | unresolvable => simp only [consumeByte_of_unresolvable h]

end Sys2Proof.Machine
end

section
/-! The statements on the exceptional cases (60_exceptions.md R183, R184, R186). -/

namespace Sys2Proof.Machine

/-- Settles O14: `edge` tries reset, then acceptance; what is accepted finds the block in IDLE or finishing, and the
advance of a finishing cycle gives IDLE. -/
theorem resetThenAdvanceThenCommand : Obligations.ResetThenAdvanceThenCommand := by
  intro s
  refine ⟨step_of_reset, step_of_not_accepts, fun ha => ?_⟩
  obtain ⟨-, -, ready⟩ := accepts_eq_true.1 ha
  exact ⟨step_of_accepts ha, by rw [atAccept_of_ready ready], idle_or_finishing_of_ready ready⟩

/-- Settles O32: no advance and no command overwrites a recorded error, and reset clears it. -/
theorem firstErrorIsKeptUntilReset : Obligations.FirstErrorIsKeptUntilReset := by
  intro s t recorded h
  refine ⟨fun hr => step_keeps_recorded hr recorded h, fun hr => ?_⟩
  cases (step_of_reset hr).symm.trans h
  exact ⟨rfl, rfl⟩

/-- Settles O33: only an error reads or writes the record, and a legal command has none; the condition that selects its
outcome and the outcome's other registers are the same under every record. -/
theorem errorsNeverBlock : Obligations.ErrorsNeverBlock := by
  refine fun s c w => ⟨rfl, fun i legal => ?_⟩
  cases i with
  | nop a d => rfl
  | wrbuf a d =>
    have fits : a.toNat < s.cfg.bufDepth := of_decide_eq_true legal
    rw [exec_wrbuf_of_fits d fits]
    exact exec_wrbuf_of_fits d fits
  | load a d =>
    have fits : a.toNat ≤ s.cfg.bufDepth := of_decide_eq_true legal
    rw [exec_load_of_fits d fits]
    exact exec_load_of_fits d fits
  | peek a d =>
    cases h : peek s with
    | ok r => rw [exec_peek_of_ok a d h]; exact exec_peek_of_ok a d h
    | error f => rw [exec_peek_of_error a d h]; exact exec_peek_of_error a d h
  | consume a d =>
    rcases Nat.lt_or_ge s.cur.toNat s.len.toNat with inside | ended
    · cases byte : bufLookup s.buf s.cur.toNat with
      | some b =>
        rw [exec_consume_of_byte a d inside byte]
        have runs := exec_consume_of_byte (s := { s with errCode := c, errWord := w }) a d inside byte
        rwa [consumeByte_of_error_record] at runs
      | none => rw [exec_consume_of_unwritten a d inside byte]; exact exec_consume_of_unwritten a d inside byte
    · rw [exec_consume_of_ended a d ended]
      exact exec_consume_of_ended a d ended
  | gap a d => rfl

end Sys2Proof.Machine
end

section
/-! SUPPORT. The reset state: its bytes and outputs, held reset, and the first command after it (10_state.md R48,
70_reset_and_hazards.md R210 to R212). -/

namespace Sys2Proof.Machine

variable {s : State}

/-- The outputs of the reset state: nothing plays, no byte is left, no error is recorded (10_state.md section 7). -/
def resetOutputs : Outputs :=
  { cmdReady := true, toneOut := false, status := 0, cursor := 0, length := 0, rsp := 0, errWord := 0 }

@[simp] theorem written_resetState (s : State) (a : Nat) : written (resetState s) a = false := rfl

/-- An empty buffer is exhausted, so the peek fields of the reset state are determined, and 0 (10_state.md R44). -/
theorem peekFields_resetState (s : State) : peekFields (resetState s) = 0 := by
  simp [peekFields, peek, exhausted]

theorem status_resetState (s : State) : status (resetState s) = 0 := by
  simp only [status, peekValid, peekChar, peekFields_resetState, errFlag, toneOut, busy, resetState_st,
    resetState_lastAct, resetState_errCode]
  decide

theorem outputs_resetState (s : State) : outputs (resetState s) = resetOutputs := by
  rw [outputs, status_resetState]
  rfl

/-- A reset edge changes no register of the reset state (70_reset_and_hazards.md R212). -/
theorem resetState_tick_resetState (s : State) : resetState (tick (resetState s)) = tick (resetState s) := rfl

/-- An edge that samples reset accepts nothing (41_buffer_commands.md R121). -/
theorem acceptedCommand_of_reset (hr : (sampled s).rst = true) : acceptedCommand s = none := by
  simp [acceptedCommand, accepts, hr]

/-- In IDLE an offered word that decodes runs at once, with nothing to advance (41_buffer_commands.md R120, R121). -/
theorem step_of_idle_offer {i : Instr} (hs : s.st = .idle) (hr : (sampled s).rst = false)
    (hv : (sampled s).cmdValid = true) (hd : decode (sampled s).cmd = .ok i) : step s = exec i (tick s) := by
  have ready : cmdReady s = true := by simp [cmdReady, hs]
  rw [step_of_accepts (accepts_eq_true.2 ⟨hr, hv, ready⟩), execWord_of_decode hd, atAccept,
    advanced_of_idle (s := tick s) hs]

end Sys2Proof.Machine
end

section
/-! The statements on reset (70_reset_and_hazards.md R210, R212). -/

namespace Sys2Proof.Machine

/-- Settles O5: the next state is `resetState`, whose buffer is empty. -/
theorem resetEdgeGivesResetState : Obligations.ResetEdgeGivesResetState := by
  intro s hr
  have reset := step_of_reset hr
  refine ⟨reset, fun t ht => ?_⟩
  cases reset.symm.trans ht
  exact ⟨written_resetState _, outputs_resetState _⟩

/-- Settles O6: the reset state is in IDLE, where a further reset edge changes no register and an offered command that
decodes runs. -/
theorem heldResetAcceptsNothing : Obligations.HeldResetAcceptsNothing := by
  intro s t hr ht
  cases (step_of_reset hr).symm.trans ht
  have outputs_same (r r' : State) : outputs (resetState r) = outputs (resetState r') :=
    (outputs_resetState r).trans (outputs_resetState r').symm
  refine ⟨fun held => ?stays, rfl, outputs_same (tick s) State.reset, rfl,
    fun released offered i hd => step_of_idle_offer rfl released offered hd⟩
  exact ⟨acceptedCommand_of_reset held, _, step_of_reset held, resetState_tick_resetState (tick s), outputs_same _ _⟩

end Sys2Proof.Machine
end

section
/-! SUPPORT. The encoder and the decoder agree, command by command (30_encoding.md R83, R89, R90). -/

namespace Sys2Proof

open Sys2Proof.Laws.LegalShape (opField_packWord rsvField_packWord)

variable {w : Word} {i : Instr}

theorem decode_packWord {op : BitVec 4} {mk : Addr → Byte → Instr} (row : commandOf op = some mk) (a : Addr)
    (d : Byte) : decode (packWord op a d) = .ok (mk a d) := by
  have hop : commandOf (opField (packWord op a d)) = some mk := by rw [opField_packWord, row]
  rw [decode_of_commandOf hop (rsvField_packWord op a d), aField_packWord, dField_packWord]

theorem decode_encode (i : Instr) : decode (encode i) = .ok i := by
  cases i <;> exact decode_packWord rfl _ _

/-- A word that decodes is a row of the opcode map with RSV = 0. -/
theorem fields_of_decode (h : decode w = .ok i) :
    rsvField w = 0 ∧ ∃ mk, commandOf (opField w) = some mk ∧ i = mk (aField w) (dField w) := by
  rcases Nat.lt_or_ge 5 (opField w).toNat with reserved | defined
  · rw [decode_of_reserved_op reserved] at h
    cases h
  · by_cases hrsv : rsvField w = 0
    · obtain ⟨mk, row⟩ := exists_commandOf defined
      rw [decode_of_commandOf row hrsv] at h
      exact ⟨hrsv, mk, row, (Except.ok.inj h).symm⟩
    · rw [decode_of_nonzero_rsv defined hrsv] at h
      cases h

/-- The encoder puts the OP of a command's row back. -/
theorem encode_of_commandOf {op : BitVec 4} {mk : Addr → Byte → Instr} (row : commandOf op = some mk) (a : Addr)
    (d : Byte) : encode (mk a d) = packWord op a d := by
  unfold commandOf at row
  split at row <;> cases row
  all_goals
    rename_i hop
    exact congrArg (packWord · a d) (BitVec.eq_of_toNat_eq hop.symm)

theorem encode_of_decode (h : decode w = .ok i) : encode i = w := by
  obtain ⟨hrsv, mk, row, rfl⟩ := fields_of_decode h
  rw [encode_of_commandOf row, packWord_fields hrsv]

end Sys2Proof
end

section
/-! The statements on the command word (30_encoding.md sections 1, 2 and 4). -/

namespace Sys2Proof

/-- Settles O1: each field of a packed word reads back, and a legal word is the packing of its fields. -/
theorem decodeAndEncodeAgree : Obligations.DecodeAndEncodeAgree :=
  ⟨decode_encode, fun _ _ => encode_of_decode⟩

/-- Settles O3: each word is closed, and the decoder computes. -/
theorem specWordsDecode : Obligations.SpecWordsDecode := by
  refine ⟨?nop, ?wrbuf, ?wrbufLast, ?load, ?peek, ?consume, ?gap, ?reservedOp, ?nonzeroRsv⟩ <;> decide

end Sys2Proof
end

section
/-! SUPPORT. The invariant of the machine under every part of an edge: reset, the advance, an error record, a command
(10_state.md sections 3 to 5, 42_playback.md section 2). -/

namespace Sys2Proof.Machine

variable {s t : State}

/-! ### What an edge does to a state, with the command it accepts -/

/-- All that an edge with a next state can do (41_buffer_commands.md R120). -/
inductive StepEffect (s : State) : State → Prop where
  | reset (rst : (sampled s).rst = true) : StepEffect s (resetState (tick s))
  | rejects (e : CmdError) (accepted : accepts (sampled s) s = true) (bad : decode (sampled s).cmd = .error e) :
      StepEffect s (recordError e (sampled s).cmd (atAccept s))
  | runs (i : Instr) {t : State} (accepted : acceptedCommand s = some i) (effect : CommandEffect (atAccept s) i t) :
      StepEffect s t
  | advances (rst : (sampled s).rst = false) (unaccepted : accepts (sampled s) s = false) : StepEffect s (atAccept s)

theorem acceptedCommand_of_decode {i : Instr} (ha : accepts (sampled s) s = true)
    (hd : decode (sampled s).cmd = .ok i) : acceptedCommand s = some i := by
  simp [acceptedCommand, ha, hd]

theorem stepEffect_of_step (h : step s = .next t) : StepEffect s t := by
  rcases step_cases s with ⟨hr, e⟩ | ⟨ha, x, hd, e⟩ | ⟨ha, i, hd, e⟩ | ⟨hr, ha, e⟩
  · cases e.symm.trans h; exact .reset hr
  · cases e.symm.trans h; exact .rejects x ha hd
  · exact .runs i (acceptedCommand_of_decode ha hd) (commandEffect_of_exec (e.symm.trans h))
  · cases e.symm.trans h; exact .advances hr ha

/-! ### Reset -/

/-- A reset meets the invariant whatever was before it, the parameters apart. -/
theorem invariant_resetState (hv : s.cfg.Valid) : Invariant (resetState s) where
  params := hv
  cursor := ⟨Nat.le_refl 0, Nat.zero_le _, hv.2.2.2⟩
  bufWf := .nil
  bufFits := nofun
  timer := Nat.zero_lt_one
  latched := .inl ⟨rfl, rfl⟩
  index := .inr ⟨rfl, rfl⟩
  sounding := nofun
  gapInside := nofun
  error := fun _ => rfl
  result := fun _ => rfl

theorem standard_valid : Config.standard.Valid :=
  ⟨by decide, Nat.le_add_left 1 _, by decide, by decide⟩

/-! ### The advance -/

theorem invariant_tick (h : Invariant s) : Invariant (tick s) := { h with }

/-- The timer counts down in its segment; the segment that follows starts with a timer in its range, and inside the
character. -/
theorem invariant_advance (h : Invariant s) : Invariant (advance s) := by
  have hu := unitCycles_pos h.params
  by_cases ht : s.tmr = 0
  · rw [advance_of_tmr_zero ht]
    rcases endSegment_cases s with ⟨_, e⟩ | ⟨_, hmore, e⟩ | ⟨hg, e⟩ | ⟨_, e⟩ <;> rw [e]
    · exact h
    · have hmore : s.idx.toNat + 1 < s.slen.toNat := by simpa [moreElements] using hmore
      exact { h with timer := Nat.sub_lt hu Nat.one_pos, sounding := nofun, gapInside := fun _ => hmore }
    · have inside := h.gapInside hg
      have hidx : (s.idx + 1).toNat = s.idx.toNat + 1 := by bv_omega
      have timer : dur s.cfg.unitCycles s.pat (s.idx.toNat + 1) - 1 < dur s.cfg.unitCycles s.pat (s.idx + 1).toNat := by
        rw [hidx]
        exact Nat.sub_lt (dur_pos hu _ _) Nat.one_pos
      exact { h with timer, index := .inl (hidx ▸ inside), sounding := fun _ => Nat.zero_lt_of_lt inside,
                     gapInside := nofun }
    · exact { h with timer := ht.trans_lt Nat.one_pos, sounding := nofun, gapInside := nofun }
  · rw [advance_of_tmr_ne ht]
    exact { h with timer := (Nat.sub_le _ 1).trans_lt h.timer }

theorem invariant_atAccept (h : Invariant s) : Invariant (atAccept s) := by
  by_cases hs : s.st = .idle
  · rw [atAccept, advanced_of_idle (s := tick s) hs]
    exact invariant_tick h
  · rw [atAccept, advanced_of_busy (s := tick s) hs]
    exact invariant_advance (invariant_tick h)

/-! ### An error record and a command -/

/-- A recorded error is one with its code. -/
theorem invariant_recordError (h : Invariant s) (e : CmdError) (w : Word) : Invariant (recordError e w s) := by
  by_cases clear : s.errCode = .none
  · rw [recordError_of_clear s clear]
    exact { h with error := fun none => absurd none (errCodeOf_ne_none e) }
  · rwa [recordError_of_recorded s clear]

/-- The character of a ROM entry starts at its element 0, for the cycles of that element. -/
theorem invariant_startCharacter (h : Invariant s) {e : BitVec 8} (entry : IsEntry e)
    (inside : s.cur.toNat < s.len.toNat) : Invariant (startCharacter e s) :=
  have first : 0 < (entrySlen e).toNat := (isEntry_slen entry).1
  { h with
    cursor := (CursorMove.passes (t := startCharacter e s) inside rfl rfl).keeps_cursorInBuffer rfl h.cursor
    timer := Nat.sub_lt (dur_pos (unitCycles_pos h.params) _ 0) Nat.one_pos
    latched := .inr ⟨e, entry, rfl, rfl⟩
    index := .inl first
    sounding := fun _ => first
    gapInside := nofun }

theorem peekByte_of_valid_bit_clear {b : Byte} (clear : (peekByte b).getLsbD 8 = false) : peekByte b = 0 := by
  by_cases hb : classify b = .unres
  · exact peekByte_of_unres hb
  · rw [(peekByte_valid b).2 hb] at clear
    cases clear

/-- Every command that completes keeps the invariant. -/
theorem CommandEffect.keeps_invariant {i : Instr} (effect : CommandEffect s i t) (h : Invariant s) : Invariant t := by
  have hu := unitCycles_pos h.params
  have cursor := effect.cursorMove.keeps_cursorInBuffer effect.cfg_eq h.cursor
  cases effect with
  | nop => exact h
  | wrbufStores a d fits =>
    exact { h with bufWf := bufInsert_wf _ d h.bufWf, bufFits := bufInsert_fits d fits h.bufFits }
  | wrbufOutOfRange => exact invariant_recordError h _ _
  | loadStarts => exact { h with cursor }
  | loadOutOfRange => exact invariant_recordError h _ _
  | peekExhausted => exact { h with result := fun _ => rfl }
  | peekSamples => exact { h with result := peekByte_of_valid_bit_clear }
  | consumeExhausted => exact { h with }
  | consumeSpace =>
    exact { h with cursor, timer := Nat.sub_lt (by omega) Nat.one_pos, sounding := nofun, gapInside := nofun }
  | consumeSignal a d b e inside _ signal => exact invariant_startCharacter h (isEntry_of_resolve signal) inside
  | consumeHalts => exact { h with }
  | gap => exact { h with timer := Nat.sub_lt (by omega) Nat.one_pos, sounding := nofun, gapInside := nofun }

/-- Every edge keeps the invariant. -/
theorem step_keeps_invariant (h : Invariant s) (hstep : step s = .next t) : Invariant t := by
  cases stepEffect_of_step hstep with
  | reset => exact invariant_resetState (s := tick s) h.params
  | rejects => exact invariant_recordError (invariant_atAccept h) _ _
  | runs i _ effect => exact effect.keeps_invariant (invariant_atAccept h)
  | advances => exact invariant_atAccept h

/-! ### The width of the timer (00_scope.md R7, 42_playback.md R149) -/

theorem lt_two_pow_tmrW (c : Config) : 7 * c.unitCycles - 1 < 2 ^ c.tmrW := Nat.lt_log2_self

theorem dur_le (u : Nat) (pat : BitVec 5) (i : Nat) : dur u pat i ≤ 3 * u := by
  unfold dur; split <;> omega

/-- The word gap is the longest segment. -/
theorem segmentCycles_le (hu : 1 ≤ s.cfg.unitCycles) : segmentCycles s ≤ 7 * s.cfg.unitCycles := by
  have hd := dur_le s.cfg.unitCycles s.pat s.idx.toNat
  unfold segmentCycles
  split <;> omega

theorem Invariant.tmr_lt (h : Invariant s) : s.tmr < 2 ^ s.cfg.tmrW := by
  have longest := segmentCycles_le (unitCycles_pos h.params)
  have timer := h.timer
  have width := lt_two_pow_tmrW s.cfg
  omega

end Sys2Proof.Machine
end

section
/-! The statements on the invariant and the arithmetic it bounds (10_state.md sections 3 to 5, 42_playback.md section 2,
00_scope.md section 3). -/

namespace Sys2Proof.Machine

/-- Settles O7: the reset state is a reset of itself, with parameters in range. -/
theorem resetMeetsTheInvariant : Obligations.ResetMeetsTheInvariant :=
  invariant_resetState (s := State.reset) standard_valid

/-- Settles O8: reset gives the invariant, and the advance, an error record and every command keep it. -/
theorem everyStepKeepsTheInvariant : Obligations.EveryStepKeepsTheInvariant :=
  fun _ _ => step_keeps_invariant

/-- Settles O10: a CONSUME that moves `cur` found it below `len`; a gap inside a character is followed by an element, of
at most 5; and `tmr` is below its segment's length. -/
theorem noIncrementWraps : Obligations.NoIncrementWraps := by
  intro s t h hstep
  refine ⟨fun a d hc moved => ?cursor, fun hr hg ht => ?index, (step_keeps_invariant h hstep).tmr_lt⟩
  case cursor =>
    rw [step_of_acceptedCommand hc] at hstep
    cases commandEffect_of_exec hstep with
    | consumeExhausted | consumeHalts => exact absurd atAccept_cur moved
    | consumeSpace _ _ _ inside | consumeSignal _ _ _ _ inside =>
      simpa using toNat_add_one_of_lt inside
  case index =>
    have inside := h.gapInside hg
    have slen : s.slen.toNat ≤ 5 := by
      rcases h.latched with ⟨_, reset⟩ | ⟨e, entry, _, latched⟩
      · simp [reset]
      · exact latched ▸ (isEntry_slen entry).2
    have busy : s.st ≠ .idle := by simp [hg]
    rw [step_of_busy busy hr (accepts_of_running _ busy (by simp [finishing, hg])),
      advance_of_elementGap (s := tick s) ht hg] at hstep
    cases hstep
    have hidx : (s.idx + 1).toNat = s.idx.toNat + 1 := by bv_omega
    exact ⟨hidx, hidx.trans_le (by omega)⟩

/-- Settles O11: `tmrW` is one more than the binary logarithm of the longest timer load. -/
theorem timerWidthIsLeast : Obligations.TimerWidthIsLeast := by
  intro c hv
  have hu := unitCycles_pos hv
  exact ⟨lt_two_pow_tmrW c, fun n hn => (Nat.log2_lt (by omega)).2 hn⟩

end Sys2Proof.Machine
end

section
/-! SUPPORT. Every class by the range of its byte, and what PEEK and CONSUME make of each class (40_alphabet.md R101,
R103, R106, R107). -/

namespace Sys2Proof.Machine

variable {b : Byte}

/-! ### The four classes, each by its range -/

theorem classify_eq_letter_iff (b : Byte) (i : Fin 26) :
    classify b = .letter i ↔ b.toNat = 0x41 + i.val ∨ b.toNat = 0x61 + i.val := by
  unfold classify
  split_ifs <;> simp [Fin.ext_iff] <;> omega

theorem classify_eq_digit_iff (b : Byte) (i : Fin 10) : classify b = .digit i ↔ b.toNat = 0x30 + i.val := by
  unfold classify
  split_ifs <;> simp [Fin.ext_iff] <;> omega

theorem eq_space_iff (b : Byte) : b = 0x20 ↔ b.toNat = 0x20 := BitVec.toNat_inj.symm

theorem classify_eq_space_iff (b : Byte) : classify b = .space ↔ b.toNat = 0x20 := by
  simp only [classify, eq_space_iff]
  split_ifs <;> simp <;> omega

theorem classify_eq_unres_iff (b : Byte) :
    classify b = .unres ↔
      b.toNat ≤ 0x1F ∨ (0x21 ≤ b.toNat ∧ b.toNat ≤ 0x2F) ∨ (0x3A ≤ b.toNat ∧ b.toNat ≤ 0x40) ∨
      (0x5B ≤ b.toNat ∧ b.toNat ≤ 0x60) ∨ 0x7B ≤ b.toNat := by
  simp only [classify, eq_space_iff]
  split_ifs <;> simp <;> omega

/-! ### What each class resolves to (40_alphabet.md R106) -/

theorem resolve_of_digit {i : Fin 10} (h : classify b = .digit i) : resolve b = .signal (romD i) := by
  simp only [resolve, h]

theorem resolve_of_space (h : classify b = .space) : resolve b = .silence := by
  simp only [resolve, h]

/-! ### What PEEK shows of each class (41_buffer_commands.md R126) -/

theorem valid_append_eq_ofNat (c : Byte) : (1#1 ++ c : BitVec 9) = BitVec.ofNat 9 (0x100 + c.toNat) := by
  revert c; decide

/-- An upper case letter, a digit and a space are shown as they are. -/
theorem peekByte_of_kept
    (h : (0x41 ≤ b.toNat ∧ b.toNat ≤ 0x5A) ∨ (0x30 ≤ b.toNat ∧ b.toNat ≤ 0x39) ∨ b.toNat = 0x20) :
    peekByte b = BitVec.ofNat 9 (0x100 + b.toNat) := by
  have resolvable : classify b ≠ .unres := by rw [Ne, classify_eq_unres_iff]; omega
  have kept : upcase b = b := if_neg (by omega)
  rw [peekByte_of_resolved resolvable, kept, valid_append_eq_ofNat]

/-- A lower case letter is shown as its upper case code. -/
theorem peekByte_of_lowercase (h : 0x61 ≤ b.toNat ∧ b.toNat ≤ 0x7A) :
    peekByte b = BitVec.ofNat 9 (0x100 + (b.toNat - 0x20)) := by
  have resolvable : classify b ≠ .unres := by rw [Ne, classify_eq_unres_iff]; omega
  have upcased : (upcase b).toNat = b.toNat - 0x20 := by rw [upcase_of_lowercase h]; bv_omega
  rw [peekByte_of_resolved resolvable, valid_append_eq_ofNat, upcased]

end Sys2Proof.Machine
end

section
/-! SUPPORT. The commands on the buffer: out of range, what a store leaves of `status`, what no other command stores
(41_buffer_commands.md R124, R125, 20_memory.md R63). -/

namespace Sys2Proof.Machine

variable {s t : State}

theorem exec_wrbuf_of_beyond {a : Addr} (d : Byte) (beyond : s.cfg.bufDepth ≤ a.toNat) :
    exec (.wrbuf a d) s = .next (recordError .addrRange (encode (.wrbuf a d)) s) :=
  if_neg (Nat.not_lt_of_le beyond)

theorem exec_load_of_beyond {a : Addr} (d : Byte) (beyond : s.cfg.bufDepth < a.toNat) :
    exec (.load a d) s = .next (recordError .lenRange (encode (.load a d)) s) :=
  if_neg (Nat.not_le_of_lt beyond)

/-! ### What `peek()` and `status` depend on -/

theorem peek_of_unwritten (inside : s.cur.toNat < s.len.toNat) (unwritten : bufLookup s.buf s.cur.toNat = none) :
    peek s = .error (.unwrittenRead s.cur.toNat) := by
  simp [peek, exhausted, inside, cursorByte, bufRead, unwritten]

/-- `peek()` reads the byte at the cursor and nothing else of the buffer. -/
theorem peek_congr (cur : t.cur = s.cur) (len : t.len = s.len)
    (byte : s.cur.toNat < s.len.toNat → bufLookup t.buf s.cur.toNat = bufLookup s.buf s.cur.toNat) :
    peek t = peek s := by
  rcases Nat.lt_or_ge s.cur.toNat s.len.toNat with inside | ended
  · have inside' : t.cur.toNat < t.len.toNat := by rwa [cur, len]
    have byte := byte inside
    rw [← cur] at byte
    cases found : bufLookup s.buf s.cur.toNat with
    | some b => rw [peek_of_byte inside found, peek_of_byte inside' (byte.trans (cur ▸ found))]
    | none => rw [peek_of_unwritten inside found, peek_of_unwritten inside' (byte.trans (cur ▸ found)), cur]
  · rw [peek_of_ended ended, peek_of_ended (by rwa [cur, len])]

theorem written_eq_false {a : Nat} : written s a = false ↔ bufLookup s.buf a = none := by
  simp [written]

theorem peekFields_of_ok {r : BitVec 9} (h : peek s = .ok r) : peekFields s = r := by
  simp [peekFields, h]

theorem status_congr (st : t.st = s.st) (lastAct : t.lastAct = s.lastAct) (errCode : t.errCode = s.errCode)
    (fields : peekFields t = peekFields s) : status t = status s := by
  simp only [status, peekChar, peekValid, errFlag, toneOut, busy, st, lastAct, errCode, fields]

/-- A store anywhere but at a cursor inside the buffer does not show on `status`. -/
theorem status_bufWrite {a : Nat} (v : Byte) (elsewhere : ¬ (a = s.cur.toNat ∧ s.cur.toNat < s.len.toNat)) :
    status (bufWrite s a v) = status s := by
  have same : peek (bufWrite s a v) = peek s := peek_congr rfl rfl fun inside =>
    bufLookup_insert_other s.buf v fun h => elsewhere ⟨h.symm, inside⟩
  refine status_congr rfl rfl rfl ?_
  rw [peekFields, same, peekFields, bufWrite_draws]

/-! ### Only WRBUF stores -/

theorem CommandEffect.buf_eq {i : Instr} (effect : CommandEffect s i t) (other : ∀ a d, i ≠ .wrbuf a d) :
    t.buf = s.buf := by
  cases effect with
  | wrbufStores a d => exact absurd rfl (other a d)
  | _ => simp

/-! ### The start of a character, field by field of its entry -/

theorem startCharacter_eq (e : BitVec 8) :
    startCharacter e s =
      { s with cur := s.cur + 1, pat := e.extractLsb' 0 5, slen := e.extractLsb' 5 3, idx := 0, st := .mark,
               tmr := (if e.getLsbD 0 then 3 * s.cfg.unitCycles else s.cfg.unitCycles) - 1, lastAct := .played } := by
  have first : (entryPat e).getLsbD 0 = e.getLsbD 0 := by
    rw [entryPat, BitVec.getLsbD_extractLsb']
    simp
  rw [startCharacter, dur, first]
  rfl

end Sys2Proof.Machine
end

section
/-! The statements on the alphabet's classes and tables (40_alphabet.md sections 1 to 3). -/

namespace Sys2Proof.Machine

/-- Settles O47: each class by its range; the count is over the 256 byte values. -/
theorem everyByteHasItsClass : Obligations.EveryByteHasItsClass :=
  ⟨fun b => ⟨classify_eq_space_iff b, classify_eq_unres_iff b, classify_eq_digit_iff b, classify_eq_letter_iff b⟩,
    by decide⟩

/-- Settles O54: both tables are closed. -/
theorem romHoldsTheMorseCode : Obligations.RomHoldsTheMorseCode := by
  unfold Obligations.RomHoldsTheMorseCode
  refine ⟨?letters, ?digits, ?A, ?zero, ?five⟩ <;> decide

end Sys2Proof.Machine
end

section
/-! The statements on what the commands do (41_buffer_commands.md, 42_playback.md sections 3 and 4, 20_memory.md
sections 1 and 2). -/

namespace Sys2Proof.Machine

/-- Settles O4: no meaning reads an operand but those of WRBUF and LOAD, and a legal LOAD reads its A alone. -/
theorem unusedFieldsDoNotMatter : Obligations.UnusedFieldsDoNotMatter := fun _ d _ =>
  ⟨rfl, rfl, rfl, rfl, fun fits => (exec_load_of_fits d fits).trans (exec_load_of_fits 0 fits).symm⟩

/-- Settles O19: it is the meaning of NOP. -/
theorem nopChangesNothing : Obligations.NopChangesNothing := fun _ _ _ => rfl

/-- Settles O27: it is the meaning of GAP. -/
theorem gapStartsThreeUnits : Obligations.GapStartsThreeUnits := fun _ _ _ => rfl

/-- Settles O21: an in-range LOAD passes its one check. -/
theorem loadStartsABuffer : Obligations.LoadStartsABuffer := fun _ d _ fits => exec_load_of_fits d fits

/-- Settles O20: the store is one `bufInsert`, which only its own address and a cursor there can see. -/
theorem wrbufStoresExactlyItsByte : Obligations.WrbufStoresExactlyItsByte := fun _ d s fits =>
  have stored : bufLookup (bufWrite s _ d).buf _ = some d := bufLookup_insert_self ..
  ⟨_, exec_wrbuf_of_fits d fits, stored, written_iff.2 ⟨d, stored⟩,
    fun _ other => bufLookup_insert_other s.buf d other, rfl, status_bufWrite d⟩

/-- Settles O22: out of range the meaning is `recordError`, which asks whether an error is recorded. -/
theorem rangeErrorsRecordTheWord : Obligations.RangeErrorsRecordTheWord := fun _ d _ =>
  ⟨fun beyond => exec_wrbuf_of_beyond d beyond, fun beyond => exec_load_of_beyond d beyond⟩

/-- Settles O23: PEEK samples `peek()`, which is 0 at the end, `peekByte` of a written byte, else the fault. -/
theorem peekSamplesTheNextCharacter : Obligations.PeekSamplesTheNextCharacter := by
  intro a d s
  refine ⟨fun ended => exec_peek_of_ok a d (peek_of_ended ended), fun inside b byte => ?written,
    fun inside unwritten => exec_peek_of_error a d (peek_of_unwritten inside (written_eq_false.1 unwritten))⟩
  have samples := exec_peek_of_ok a d (peek_of_byte inside byte)
  refine ⟨fun kept => ?_, fun low high => ?_, fun unres => ?_⟩
  · rw [samples, peekByte_of_kept kept]
  · rw [samples, peekByte_of_lowercase ⟨low, high⟩]
  · rw [samples, peekByte_of_unres unres]

/-- Settles O24: PEEK writes `rsp` alone, which `peek()` does not read. -/
theorem peekIsIdempotent : Obligations.PeekIsIdempotent := by
  intro a d a' d' s t h
  cases hp : peek s with
  | ok r =>
    cases (exec_peek_of_ok a d hp).symm.trans h
    exact exec_peek_of_ok (s := { s with rsp := r }) a' d' hp
  | error f => cases (exec_peek_of_error a d hp).symm.trans h

/-- Settles O25: the byte's range gives its class, the class what it resolves to, and that the case of CONSUME. -/
theorem consumeTakesItsFourCases : Obligations.ConsumeTakesItsFourCases := by
  intro a d s u starts
  refine ⟨exec_consume_of_ended a d, fun inside b byte => ?written,
    fun inside unwritten => exec_consume_of_unwritten a d inside (written_eq_false.1 unwritten)⟩
  have takes := exec_consume_of_byte a d inside byte
  have plays {e : BitVec 8} (hres : resolve b = .signal e) : exec (.consume a d) s = .next (starts e) := by
    rw [takes, consumeByte_of_signal hres, startCharacter_eq]
  refine ⟨fun space => ?space, fun i letter => plays (resolve_of_letter ((classify_eq_letter_iff b i).2 letter)),
    fun i digit => plays (resolve_of_digit ((classify_eq_digit_iff b i).2 digit)), fun unres => ?unresolvable⟩
  case space =>
    rw [takes, consumeByte_of_silence (resolve_of_space ((classify_eq_space_iff b).2 space))]
    rfl
  case unresolvable => rw [takes, consumeByte_of_unresolvable ((resolve_unresolvable_iff b).2 unres)]

/-- Settles O29: `bufWrite` is the effect of WRBUF alone. -/
theorem onlyWrbufStores : Obligations.OnlyWrbufStores := by
  intro i s t other h x
  rw [(commandEffect_of_exec h).buf_eq other]

end Sys2Proof.Machine
end

section
/-! SUPPORT. Who writes a register, what a rejected word does, and which edges have no next state (10_state.md R21,
60_exceptions.md R181, R182, R200). -/

namespace Sys2Proof.Machine

variable {s t : State} {i : Instr} {w : Word} {e : CmdError}

/-! ### The start of a character and of a word gap: the registers CONSUME does not write -/

@[simp] theorem startCharacter_rsp (e : BitVec 8) : (startCharacter e s).rsp = s.rsp := rfl
@[simp] theorem startCharacter_errCode (e : BitVec 8) : (startCharacter e s).errCode = s.errCode := rfl
@[simp] theorem startCharacter_errWord (e : BitVec 8) : (startCharacter e s).errWord = s.errWord := rfl
@[simp] theorem startWordGap_rsp : (startWordGap s).rsp = s.rsp := rfl
@[simp] theorem startWordGap_errCode : (startWordGap s).errCode = s.errCode := rfl
@[simp] theorem startWordGap_errWord : (startWordGap s).errWord = s.errWord := rfl

/-! ### The state a command runs in: the registers the advance does not write -/

@[simp] theorem atAccept_pat : (atAccept s).pat = s.pat := by simp [atAccept]
@[simp] theorem atAccept_slen : (atAccept s).slen = s.slen := by simp [atAccept]
@[simp] theorem atAccept_rsp : (atAccept s).rsp = s.rsp := by simp [atAccept]
@[simp] theorem atAccept_lastAct : (atAccept s).lastAct = s.lastAct := by simp [atAccept]
@[simp] theorem atAccept_errCode : (atAccept s).errCode = s.errCode := by simp [atAccept]
@[simp] theorem atAccept_errWord : (atAccept s).errWord = s.errWord := by simp [atAccept]

theorem atAccept_of_idle (h : s.st = .idle) : atAccept s = tick s := advanced_of_idle (s := tick s) h

theorem acceptedCommand_eq_some_iff :
    acceptedCommand s = some i ↔ accepts (sampled s) s = true ∧ decode (sampled s).cmd = .ok i := by
  refine ⟨fun h => ?_, fun ⟨ha, hd⟩ => acceptedCommand_of_decode ha hd⟩
  unfold acceptedCommand at h
  split at h
  case isFalse => cases h
  case isTrue ha =>
    cases hd : decode (sampled s).cmd with
    | ok j => rw [hd] at h; cases h; exact ⟨ha, rfl⟩
    | error e => simp [hd] at h

/-! ### The writers of a register -/

/-- The command `o`, if any, is a `mk`, whatever its operands. -/
def IsCommand (mk : Addr → Byte → Instr) (o : Option Instr) : Prop := ∃ a d, o = some (mk a d)

/-- A register that neither the advance nor an error record writes is written by an accepted command or by reset. -/
theorem writer_of_step {α : Type} (r : State → α) (wrote : Option Instr → Prop) (hstep : step s = .next t)
    (advance : r (atAccept s) = r s) (record : ∀ e w u, r (recordError e w u) = r u)
    (command : ∀ u i v, CommandEffect u i v → r v = r u ∨ wrote (some i)) (changed : r t ≠ r s) :
    wrote (acceptedCommand s) ∨ (sampled s).rst = true := by
  cases stepEffect_of_step hstep with
  | reset rst => exact .inr rst
  | rejects => exact absurd ((record _ _ _).trans advance) changed
  | runs i accepted effect =>
    rw [accepted]
    exact .inl ((command _ i t effect).resolve_left fun same => changed (same.trans advance))
  | advances => exact absurd advance changed

/-- A register that the advance writes too is written by it only where an operation runs. -/
theorem writer_of_step_or_running {α : Type} (r : State → α) (wrote : Option Instr → Prop) (hstep : step s = .next t)
    (bookkeeping : r (tick s) = r s) (record : ∀ e w u, r (recordError e w u) = r u)
    (command : ∀ u i v, CommandEffect u i v → r v = r u ∨ wrote (some i)) (changed : r t ≠ r s) :
    wrote (acceptedCommand s) ∨ s.st ≠ .idle ∨ (sampled s).rst = true := by
  by_cases hs : s.st = .idle
  · have advance : r (atAccept s) = r s := by rw [atAccept_of_idle hs, bookkeeping]
    exact (writer_of_step r wrote hstep advance record command changed).imp_right .inr
  · exact .inr (.inl hs)

/-- A range error of an accepted command is one of the whole check. -/
theorem acceptsError_of_rangeError (accepted : acceptedCommand s = some i)
    (hr : rangeError s.cfg.bufDepth i = some e) : acceptsError s := by
  obtain ⟨ha, hd⟩ := acceptedCommand_eq_some_iff.1 accepted
  exact ⟨ha, e, checkedDecode_of_rangeError hd hr⟩

/-- The error record is written where an accepted word fails a check, and by reset. -/
theorem errorWriter_of_step (hstep : step s = .next t) (changed : ¬ (t.errCode = s.errCode ∧ t.errWord = s.errWord)) :
    acceptsError s ∨ (sampled s).rst = true := by
  cases stepEffect_of_step hstep with
  | reset rst => exact .inr rst
  | rejects e accepted bad => exact .inl ⟨accepted, e, checkedDecode_of_error bad⟩
  | runs i accepted effect =>
    cases effect with
    | wrbufOutOfRange _ _ beyond =>
      exact .inl (acceptsError_of_rangeError accepted (if_pos (by simpa using beyond)))
    | loadOutOfRange _ _ beyond =>
      exact .inl (acceptsError_of_rangeError accepted (if_pos (by simpa using beyond)))
    | _ => exact absurd (by simp) changed
  | advances => exact absurd (by simp) changed

/-! ### A word that fails a check only records its error -/

theorem execWord_of_error (h : decode w = .error e) : execWord w s = .next (recordError e w s) := by
  simp only [execWord, h]

/-- A command out of range records the word it is encoded as. -/
theorem exec_of_rangeError (h : rangeError s.cfg.bufDepth i = some e) :
    exec i s = .next (recordError e (encode i) s) := by
  cases i with
  | wrbuf a d =>
    obtain ⟨beyond, rfl⟩ : s.cfg.bufDepth ≤ a.toNat ∧ CmdError.addrRange = e := by simpa [rangeError] using h
    exact exec_wrbuf_of_beyond d beyond
  | load a d =>
    obtain ⟨beyond, rfl⟩ : s.cfg.bufDepth < a.toNat ∧ CmdError.lenRange = e := by simpa [rangeError] using h
    exact exec_load_of_beyond d beyond
  | _ => cases h

/-- Whichever check fails, its error is recorded with the whole word. -/
theorem execWord_of_checkedDecode_error (h : checkedDecode s.cfg.bufDepth w = .error e) :
    execWord w s = .next (recordError e w s) := by
  cases hd : decode w with
  | error e' =>
    cases (checkedDecode_of_error hd).symm.trans h
    exact execWord_of_error hd
  | ok i =>
    cases hr : rangeError s.cfg.bufDepth i with
    | none => cases (checkedDecode_of_inRange hd hr).symm.trans h
    | some e' =>
      cases (checkedDecode_of_rangeError hd hr).symm.trans h
      rw [execWord_of_decode hd, exec_of_rangeError hr, encode_of_decode hd]

/-! ### Where there is no next state -/

/-- A command completes, or is a PEEK or CONSUME of an unwritten byte and faults. -/
theorem exec_next_or_fault (i : Instr) (s : State) :
    (∃ t, exec i s = .next t) ∨
    (s.cur.toNat < s.len.toNat ∧ bufLookup s.buf s.cur.toNat = none ∧ (∃ a d, i = .peek a d ∨ i = .consume a d) ∧
      exec i s = .fault (.unwrittenRead s.cur.toNat)) := by
  cases i with
  | nop | gap => exact .inl ⟨_, rfl⟩
  | wrbuf a d => rcases execWrbuf_cases a d s with ⟨_, e⟩ | ⟨_, e⟩ <;> exact .inl ⟨_, e⟩
  | load a d => rcases execLoad_cases a d s with ⟨_, e⟩ | ⟨_, e⟩ <;> exact .inl ⟨_, e⟩
  | peek a d =>
    rcases execPeek_cases a d s with ⟨_, e⟩ | ⟨_, _, _, e⟩ | ⟨inside, unwritten, e⟩
    · exact .inl ⟨_, e⟩
    · exact .inl ⟨_, e⟩
    · exact .inr ⟨inside, unwritten, ⟨a, d, .inl rfl⟩, e⟩
  | consume a d =>
    rcases execConsume_cases a d s with ⟨_, e⟩ | ⟨_, _, _, e⟩ | ⟨inside, unwritten, e⟩
    · exact .inl ⟨_, e⟩
    · exact .inl ⟨_, e⟩
    · exact .inr ⟨inside, unwritten, ⟨a, d, .inr rfl⟩, e⟩

theorem exec_eq_fault_iff {f : Fault} :
    exec i s = .fault f ↔
      f = .unwrittenRead s.cur.toNat ∧ s.cur.toNat < s.len.toNat ∧ bufLookup s.buf s.cur.toNat = none ∧
        ∃ a d, i = .peek a d ∨ i = .consume a d := by
  constructor
  · intro h
    rcases exec_next_or_fault i s with ⟨t, e⟩ | ⟨inside, unwritten, reads, e⟩ <;> cases e.symm.trans h
    exact ⟨rfl, inside, unwritten, reads⟩
  · rintro ⟨rfl, inside, unwritten, a, d, rfl | rfl⟩
    · exact exec_peek_of_error a d (peek_of_unwritten inside unwritten)
    · exact exec_consume_of_unwritten a d inside unwritten

theorem exec_ne_refused (i : Instr) (s : State) (r : Refusal) : exec i s ≠ .refused r := by
  intro h
  rcases exec_next_or_fault i s with ⟨t, e⟩ | ⟨_, _, _, e⟩ <;> cases e.symm.trans h

/-- An edge that runs no command has a next state. -/
theorem step_next_of_no_command (h : acceptedCommand s = none) : ∃ t, step s = .next t := by
  rcases step_cases s with ⟨_, e⟩ | ⟨_, _, _, e⟩ | ⟨ha, i, hd, _⟩ | ⟨_, _, e⟩
  · exact ⟨_, e⟩
  · exact ⟨_, e⟩
  · cases (acceptedCommand_of_decode ha hd).symm.trans h
  · exact ⟨_, e⟩

end Sys2Proof.Machine
end

section
/-! The statements on one edge: acceptance, the writers of the registers, rejected words, faults, and readiness
(10_state.md sections 1 and 5, 41_buffer_commands.md section 1, 60_exceptions.md sections 1, 2 and 7). -/

namespace Sys2Proof.Machine

/-- Settles O13: the accepted word runs in the state `atAccept`. -/
theorem stepRunsTheDecodedCommand : Obligations.StepRunsTheDecodedCommand := by
  intro s i hr hv ready hd
  rw [step_of_accepts (accepts_eq_true.2 ⟨hr, hv, ready⟩), execWord_of_decode hd, atAccept_of_ready ready]

/-- Settles O15: an edge that accepts nothing is a reset or an advance, and neither reads the offer. -/
theorem unacceptedOffersLeaveNoTrace : Obligations.UnacceptedOffersLeaveNoTrace := by
  intro s p q rest same hp hq
  by_cases hr : p.rst = true
  · rw [step_of_reset (s := { s with inputs := p :: rest }) hr,
      step_of_reset (s := { s with inputs := q :: rest }) (same.symm.trans hr)]
    rfl
  · have hr : p.rst = false := by simpa using hr
    rw [step_of_not_accepts (s := { s with inputs := p :: rest }) hr hp,
      step_of_not_accepts (s := { s with inputs := q :: rest }) (same.symm.trans hr) hq]
    rfl

/-- Settles O30: each register is written by some of the commands, and `st`, `tmr` and `idx` by the advance as well,
which in IDLE writes nothing. -/
theorem registersHaveOnlyTheirWriters : Obligations.RegistersHaveOnlyTheirWriters := by
  intro s t h rst consume gap load peek wrbuf running
  have segment {α : Type} (r : State → α) :=
    writer_of_step_or_running r (fun o => IsCommand .consume o ∨ IsCommand .gap o) h
  have consumed {α : Type} (r : State → α) := writer_of_step r (IsCommand .consume) h
  refine ⟨fun hst => ?st, fun htmr => ?tmr, ?pat, ?slen, ?idx, fun hcur => ?cur, ?len, ?buf, ?rsp, ?lastAct,
    fun hcode => errorWriter_of_step h fun same => hcode same.1,
    fun hword => errorWriter_of_step h fun same => hword same.2⟩
  case st => exact or_assoc.1 (segment State.st rfl (by simp) (by rintro _ _ _ ⟨⟩ <;> simp [IsCommand]) hst)
  case tmr => exact or_assoc.1 (segment State.tmr rfl (by simp) (by rintro _ _ _ ⟨⟩ <;> simp [IsCommand]) htmr)
  case pat => exact consumed State.pat (by simp) (by simp) (by rintro _ _ _ ⟨⟩ <;> simp [IsCommand])
  case slen => exact consumed State.slen (by simp) (by simp) (by rintro _ _ _ ⟨⟩ <;> simp [IsCommand])
  case idx =>
    exact writer_of_step_or_running State.idx (IsCommand .consume) h rfl (by simp)
      (by rintro _ _ _ ⟨⟩ <;> simp [IsCommand])
  case cur =>
    exact or_assoc.1 (writer_of_step State.cur (fun o => IsCommand .load o ∨ IsCommand .consume o) h (by simp)
      (by simp) (by rintro _ _ _ ⟨⟩ <;> simp [IsCommand]) hcur)
  case len =>
    exact writer_of_step State.len (IsCommand .load) h (by simp) (by simp)
      (by rintro _ _ _ ⟨⟩ <;> simp [IsCommand])
  case buf =>
    exact writer_of_step State.buf (IsCommand .wrbuf) h (by simp) (by simp)
      (by rintro _ _ _ ⟨⟩ <;> simp [IsCommand])
  case rsp =>
    exact writer_of_step State.rsp (IsCommand .peek) h (by simp) (by simp)
      (by rintro _ _ _ ⟨⟩ <;> simp [IsCommand])
  case lastAct => exact consumed State.lastAct (by simp) (by simp) (by rintro _ _ _ ⟨⟩ <;> simp [IsCommand])

/-- Settles O31: whichever check fails, the edge records its error in the state `atAccept`, which is in IDLE; the checks
in their order are those of `firstFailingCheckNamesTheError`. -/
theorem rejectedWordsOnlyRecord : Obligations.RejectedWordsOnlyRecord := by
  intro s ha w op rsv a records
  have ready := atAccept_of_ready (accepts_eq_true.1 ha).2.2
  have rejected (e : CmdError) (h : checkedDecode s.cfg.bufDepth w = .error e) : records (errCodeOf e) := by
    rw [← atAccept_cfg (s := s)] at h
    refine ⟨_, (step_of_accepts ha).trans (execWord_of_checkedDecode_error h), ?idle, fun clear => ?clear,
      fun recorded => ?recorded⟩
    case idle => rw [recordError_st, ready]
    case clear => rw [recordError_of_clear _ (by simpa using clear), ready]
    case recorded => rw [recordError_of_recorded _ (by simpa using recorded), ready]
  obtain ⟨illegalOp, rsvNonzero, addrRange, lenRange, -⟩ := firstFailingCheckNamesTheError s.cfg.bufDepth w
  exact ⟨fun hop => rejected _ (illegalOp hop), fun hop hrsv => rejected _ (rsvNonzero hop hrsv),
    fun hop hrsv out => rejected _ (addrRange hop hrsv out), fun hop hrsv out => rejected _ (lenRange hop hrsv out),
    fun e h => ⟨errCodeOf e, errCodeOf_ne_none e, rejected e h⟩⟩

/-- Settles O34: an edge without a next state accepts a command, and of the commands only PEEK and CONSUME fault. -/
theorem onlyUnwrittenReadsStop : Obligations.OnlyUnwrittenReadsStop := by
  intro s
  cases hc : acceptedCommand s with
  | none =>
    obtain ⟨t, ht⟩ := step_next_of_no_command hc
    simp [ht]
  | some i =>
    rw [step_of_acceptedCommand hc]
    refine ⟨fun f => exec_eq_fault_iff.trans ?_, exec_ne_refused i _⟩
    simp [written_eq_false]

/-- Settles O45: the block is ready in IDLE, where it is not busy, and in a finishing cycle, where it is. -/
theorem busyAndReadyMeetOnlyWhenFinishing : Obligations.BusyAndReadyMeetOnlyWhenFinishing := by
  intro s
  by_cases hs : s.st = .idle
  · simp [busy, cmdReady, hs, finishing_of_idle hs]
  · have running : busy s = true := by simp [busy, hs]
    simp [running, cmdReady_of_busy hs]

end Sys2Proof.Machine
end

section
/-! SUPPORT. What the cycles of an operation leave alone, and how its segment runs out (42_playback.md R143, R146,
70_reset_and_hazards.md R219). -/

namespace Sys2Proof.Machine

variable {s t u : State}

/-! ### The registers that only commands and reset write -/

/-- `t` and `s` have the parameters, the buffer with its cursor and the error record in common. -/
structure SameBuffer (s t : State) : Prop where
  cfg     : t.cfg = s.cfg
  cur     : t.cur = s.cur
  len     : t.len = s.len
  buf     : t.buf = s.buf
  errCode : t.errCode = s.errCode
  errWord : t.errWord = s.errWord

/-- `t` differs from `s` at most in the registers of the running operation (`st`, `tmr`, `idx`), in the host's coming
samples and in the draw. -/
structure SameData (s t : State) : Prop extends SameBuffer s t where
  rsp     : t.rsp = s.rsp
  pat     : t.pat = s.pat
  slen    : t.slen = s.slen
  lastAct : t.lastAct = s.lastAct

theorem SameBuffer.trans (h : SameBuffer s t) (h' : SameBuffer t u) : SameBuffer s u where
  cfg := h'.cfg.trans h.cfg
  cur := h'.cur.trans h.cur
  len := h'.len.trans h.len
  buf := h'.buf.trans h.buf
  errCode := h'.errCode.trans h.errCode
  errWord := h'.errWord.trans h.errWord

theorem SameBuffer.remaining {bs : List Byte} (same : SameBuffer s t) (h : Remaining s bs) : Remaining t bs := by
  unfold Remaining
  rw [same.cur, same.len, same.buf]
  exact h

theorem SameData.refl (s : State) : SameData s s := ⟨⟨rfl, rfl, rfl, rfl, rfl, rfl⟩, rfl, rfl, rfl, rfl⟩

theorem SameData.trans (h : SameData s t) (h' : SameData t u) : SameData s u where
  toSameBuffer := h.toSameBuffer.trans h'.toSameBuffer
  rsp := h'.rsp.trans h.rsp
  pat := h'.pat.trans h.pat
  slen := h'.slen.trans h.slen
  lastAct := h'.lastAct.trans h.lastAct

/-- The advance writes none of them, and does not need the host's samples or the draw for it. -/
theorem sameData_advanced (s : State) (i : List Inputs) (d : Nat) :
    SameData s (advanced { s with inputs := i, draws := d }) := by
  refine ⟨⟨?_, ?_, ?_, ?_, ?_, ?_⟩, ?_, ?_, ?_, ?_⟩ <;> simp

theorem SameData.peek_eq (h : SameData s t) : peek t = peek s :=
  peek_congr h.cur h.len fun _ => by rw [h.buf]

/-- Over an exhausted buffer or a written byte, `peek()` is determined. -/
theorem exists_peek_ok (h : s.len.toNat ≤ s.cur.toNat ∨ written s s.cur.toNat = true) : ∃ r, peek s = .ok r := by
  rcases Nat.lt_or_ge s.cur.toNat s.len.toNat with inside | ended
  · obtain ⟨b, byte⟩ := written_iff.1 (h.resolve_left (Nat.not_le_of_lt inside))
    exact ⟨_, peek_of_byte inside byte⟩
  · exact ⟨0, peek_of_ended ended⟩

/-- A determined peek field stays as it is. -/
theorem SameData.peekFields_eq {r : BitVec 9} (h : SameData s t) (determined : peek s = .ok r) :
    peekFields t = peekFields s := by
  rw [peekFields_of_ok determined, peekFields_of_ok (h.peek_eq.trans determined)]

/-! ### Cycles in which the block is not ready -/

theorem st_ne_idle_of_not_ready (h : cmdReady s = false) : s.st ≠ .idle := fun hs => by simp [cmdReady, hs] at h

/-- They only advance the operation, and do not end it. -/
theorem run_of_not_ready {n : Nat} (hr : NoReset n s) (notReady : ∀ r ∈ observe cmdReady n s, r = false) :
    ∃ t, core.run n s = .next t ∧ SameData s t ∧ (s.st ≠ .idle → t.st ≠ .idle) := by
  induction n generalizing s with
  | zero => exact ⟨s, rfl, .refl s, id⟩
  | succ n ih =>
    have ready : cmdReady s = false := notReady _ List.mem_cons_self
    have running := st_ne_idle_of_not_ready ready
    have hstep : step s = .next (atAccept s) := step_of_not_accepts hr.head (accepts_of_not_ready ready)
    have advance : atAccept s = advance (tick s) := advanced_of_busy (s := tick s) running
    rw [observe_succ _ _ hstep] at notReady
    obtain ⟨t, run, same, runs⟩ := ih (hr.tail (by simp [advance])) fun r h => notReady r (List.mem_cons_of_mem _ h)
    refine ⟨t, (run_succ n hstep).trans run, (sameData_advanced s _ _).trans same, fun _ => runs fun ended => ?_⟩
    rw [advance] at ended
    have finished := (advance_st_eq_idle_iff (s := tick s) running).1 ended
    rw [finishing_tick, ← cmdReady_of_busy running, ready] at finished
    cases finished

/-! ### A segment runs out -/

/-- The timer counts the cycles of a segment. -/
theorem run_of_counting {j : Nat} (running : s.st ≠ .idle) (hj : j ≤ s.tmr) (hr : NoReset j s) :
    ∃ t, core.run j s = .next t ∧ t.st = s.st ∧ t.idx = s.idx ∧ t.tmr = s.tmr - j := by
  induction j generalizing s with
  | zero => exact ⟨s, rfl, rfl, rfl, rfl⟩
  | succ j ih =>
    have hstep := step_of_counting running (by omega) hr.head
    obtain ⟨t, run, st, idx, tmr⟩ := ih (s := { tick s with tmr := s.tmr - 1 }) running (Nat.le_sub_one_of_lt hj)
      (hr.tail rfl)
    exact ⟨t, (run_succ j hstep).trans run, st, idx, tmr.trans (by rw [Nat.sub_sub, Nat.add_comm])⟩

theorem endSegment_st_ne (running : s.st ≠ .idle) : (endSegment s).st ≠ s.st := by
  rcases endSegment_cases s with ⟨hs, _⟩ | ⟨hs, _, e⟩ | ⟨hs, e⟩ | ⟨_, e⟩
  · exact absurd hs running
  · simp [e, hs]
  · simp [e, hs]
  · rw [e]; exact running.symm

end Sys2Proof.Machine
end

section
/-! SUPPORT. The fields of `status` (10_state.md R42), and its peek fields by the byte at the cursor. -/

namespace Sys2Proof.Machine

variable {s : State} {b : Byte}

theorem status_busy (s : State) : (status s).getLsbD 0 = busy s := by
  simp only [status, BitVec.getLsbD_append]; simp

theorem status_tone (s : State) : (status s).getLsbD 1 = toneOut s := by
  simp only [status, BitVec.getLsbD_append]; simp

theorem status_peekValid (s : State) : (status s).getLsbD 2 = peekValid s := by
  simp only [status, BitVec.getLsbD_append]; simp

theorem status_err (s : State) : (status s).getLsbD 3 = errFlag s := by
  simp only [status, BitVec.getLsbD_append]; simp

theorem status_lastAct (s : State) : (status s).extractLsb' 4 3 = lastActCode s.lastAct := by
  unfold status
  iterate 6 rw [BitVec.extractLsb'_append_eq_of_add_le (by decide)]
  exact BitVec.extractLsb'_append_eq_left

theorem status_peekChar (s : State) : (status s).extractLsb' 8 8 = peekChar s := by
  unfold status
  iterate 4 rw [BitVec.extractLsb'_append_eq_of_add_le (by decide)]
  exact BitVec.extractLsb'_append_eq_left

theorem status_st (s : State) : (status s).extractLsb' 16 3 = stCode s.st := by
  unfold status
  iterate 3 rw [BitVec.extractLsb'_append_eq_of_add_le (by decide)]
  exact BitVec.extractLsb'_append_eq_left

theorem status_errCode (s : State) : (status s).extractLsb' 20 4 = errCodeCode s.errCode := by
  unfold status
  rw [BitVec.extractLsb'_append_eq_of_add_le (by decide)]
  exact BitVec.extractLsb'_append_eq_left

/-! ### The peek fields by the byte at the cursor (10_state.md R44) -/

theorem peekByte_char (b : Byte) : (peekByte b).extractLsb' 0 8 = if classify b = .unres then 0 else upcase b := by
  by_cases unres : classify b = .unres
  · rw [peekByte_of_unres unres, if_pos unres]
    rfl
  · rw [peekByte_of_resolved unres, if_neg unres]
    exact BitVec.extractLsb'_append_eq_right

theorem status_peek_of_ended (ended : s.len.toNat ≤ s.cur.toNat) :
    (status s).getLsbD 2 = false ∧ (status s).extractLsb' 8 8 = 0 := by
  have fields := peekFields_of_ok (peek_of_ended ended)
  rw [status_peekValid, status_peekChar, peekValid, peekChar, fields]
  exact ⟨rfl, rfl⟩

theorem status_peek_of_byte (inside : s.cur.toNat < s.len.toNat) (byte : bufLookup s.buf s.cur.toNat = some b) :
    ((status s).getLsbD 2 = true ↔ classify b ≠ .unres) ∧
      (status s).extractLsb' 8 8 = if classify b = .unres then 0 else upcase b := by
  have fields := peekFields_of_ok (peek_of_byte inside byte)
  rw [status_peekValid, status_peekChar, peekValid, peekChar, fields]
  exact ⟨peekByte_valid b, peekByte_char b⟩

end Sys2Proof.Machine
end

section
/-! SUPPORT. The halt at an unresolvable byte, and the registers of a CONSUME that plays (42_playback.md R155, R160). -/

namespace Sys2Proof.Machine

variable {s t : State} {b : Byte}

/-- A resolvable byte starts an operation. -/
theorem consumeByte_st_ne_idle (h : resolve b ≠ .unresolvable) (s : State) : (consumeByte b s).st ≠ .idle := by
  cases hres : resolve b with
  | silence => rw [consumeByte_of_silence hres]; simp [startWordGap]
  | signal e => rw [consumeByte_of_signal hres]; simp [startCharacter]
  | unresolvable => exact absurd hres h

/-- At an unresolvable byte only a LOAD moves the cursor, and only a WRBUF to that byte replaces it. -/
theorem halt_stays (byte : bufLookup s.buf s.cur.toNat = some b) (unres : resolve b = .unresolvable)
    (hr : (sampled s).rst = false) (noLoad : ∀ a d, acceptedCommand s ≠ some (.load a d))
    (noStore : ∀ a d, acceptedCommand s = some (.wrbuf a d) → a ≠ s.cur) (hstep : step s = .next t) :
    t.cur = s.cur ∧ t.len = s.len ∧ bufLookup t.buf s.cur.toNat = some b := by
  cases stepEffect_of_step hstep with
  | reset rst => simp [hr] at rst
  | rejects | advances => simp [byte]
  | runs i accepted effect =>
    cases effect with
    | loadStarts a d => exact absurd accepted (noLoad a d)
    | wrbufStores a d =>
      have other : s.cur.toNat ≠ a.toNat := fun h => noStore a d accepted (BitVec.eq_of_toNat_eq h.symm)
      simp [bufLookup_insert_other _ _ other, byte]
    | consumeSpace _ _ c _ found resolvable | consumeSignal _ _ c _ _ found resolvable =>
      have same : b = c := by simpa [byte] using found
      rw [← same, unres] at resolvable
      cases resolvable
    | _ => simp [byte]

end Sys2Proof.Machine
end

section
/-! The statements on segments, the halt and `status` (10_state.md section 5, 42_playback.md sections 2 to 4,
70_reset_and_hazards.md section 3). -/

namespace Sys2Proof.Machine

/-- Settles O35: the timer counts to 0 in its segment, and the end of a segment changes `st`. -/
theorem segmentLastsItsCount : Obligations.SegmentLastsItsCount := by
  intro s k running hk hr
  obtain rfl : k = s.tmr + 1 := hk.symm
  rw [Nat.add_sub_cancel] at *
  refine ⟨fun j hj => run_of_counting running (Nat.le_of_lt_succ hj) (hr.mono (Nat.le_of_lt_succ hj)), ?_⟩
  intro t run released unaccepted
  obtain ⟨_, run', st, -, tmr⟩ := run_of_counting running le_rfl hr
  cases run'.symm.trans run
  rw [Nat.sub_self] at tmr
  have running' : t.st ≠ .idle := by rwa [st]
  refine ⟨_, step_of_busy running' released unaccepted, ?_⟩
  rw [advance_of_tmr_zero (s := tick t) tmr, ← st]
  exact endSegment_st_ne (s := tick t) running'

/-- Settles O39: the accept edge starts the gap, which plays silence. -/
theorem gapIsThreeUnitsOfSilence : Obligations.GapIsThreeUnitsOfSilence := by
  intro s a d hv hc n
  obtain ⟨start, plays⟩ := gap_plays_silence hv hc
  have hn := List.length_replicate (n := n) (a := false)
  exact ⟨_, start, by simp, by simp, fun hr => ⟨plays.observe_toneOut hn hr, plays.observe_cmdReady hn hr⟩⟩

/-- Settles O40: the state after the finishing cycle is the first of the new character's element 0. -/
theorem missingGapMergesTones : Obligations.MissingGapMergesTones := by
  intro s a d b e sounding _ hc inside byte hres
  refine ⟨by simp [toneOut, sounding], _, step_of_consume hc inside byte, ?_⟩
  rw [consumeByte_of_signal hres]
  exact ⟨rfl, by simp⟩

/-- Settles O44: each field is a part of the concatenation, and the codes are those of the tables. -/
theorem statusFieldsAreInPlace : Obligations.StatusFieldsAreInPlace := by
  intro s
  rw [status_busy, status_tone, status_err, status_lastAct, status_st, status_errCode]
  refine ⟨by simp [busy], by simp [toneOut], by simp [errFlag], ?lastAct, ?st, ?errCode, status_peek_of_ended,
    fun inside b byte => status_peek_of_byte inside byte⟩
  case lastAct => cases s.lastAct <;> rfl
  case st => cases s.st <;> rfl
  case errCode => cases s.errCode <;> rfl

/-- Settles O41: the accept edge moves the cursor past the byte it plays; until the block is ready again only the
operation's own registers change, and the peek fields are those of the byte at the cursor. -/
theorem statusShowsTheNextByteWhilePlaying : Obligations.StatusShowsTheNextByteWhilePlaying := by
  constructor
  · intro s a d b hc inside byte hres
    refine ⟨_, step_of_consume hc inside byte, fun n hr notReady => ?_⟩
    obtain ⟨u, run, same, runs⟩ := run_of_not_ready hr notReady
    have cur : u.cur.toNat = s.cur.toNat + 1 := by
      rw [same.cur, (consumeByte_cur_iff b _).2 hres, atAccept_cur, toNat_add_one_of_lt inside]
    have len : u.len = s.len := by simpa using same.len
    have buf : u.buf = s.buf := by simpa using same.buf
    refine ⟨u, run, by simpa [busy] using runs (consumeByte_st_ne_idle hres _), cur, fun last => ?_,
      fun more c next => ?_⟩
    · exact status_peek_of_ended (by rw [cur, len]; exact last.ge)
    · exact status_peek_of_byte (by rwa [cur, len]) (by rwa [buf, cur])
  · intro n s hr notReady
    obtain ⟨t, run, same, -⟩ := run_of_not_ready hr notReady
    refine ⟨t, run, same.cur, same.len, same.buf, same.rsp, same.pat, same.slen, same.lastAct, same.errCode,
      same.errWord, fun determined => ?_⟩
    obtain ⟨r, hp⟩ := exists_peek_ok determined
    exact same.peekFields_eq hp

/-- Settles O42: the byte at the cursor stays, so what reads it finds it unresolvable again. -/
theorem unresolvableByteHalts : Obligations.UnresolvableByteHalts := by
  intro s t b inside byte unres hr noLoad noStore hstep
  obtain ⟨cur, len, stays⟩ := halt_stays byte unres hr noLoad noStore hstep
  have shows : peekByte b = 0 := peekByte_of_unres ((resolve_unresolvable_iff b).1 unres)
  refine ⟨cur, len, by rwa [cur], fun a d hc => ?consume, fun a d hc => ?peek, ?valid⟩
  case consume =>
    cases (step_of_consume hc inside byte).symm.trans hstep
    have ready := (accepts_eq_true.1 (acceptedCommand_eq_some_iff.1 hc).1).2.2
    rw [consumeByte_of_unresolvable unres, atAccept_of_ready ready]
    exact ⟨rfl, rfl⟩
  case peek =>
    have found := peek_of_byte (s := atAccept s) (by simpa using inside) (by simpa using byte)
    cases (exec_peek_of_ok a d found).symm.trans ((step_of_acceptedCommand hc).symm.trans hstep)
    exact shows
  case valid =>
    rw [peekValid_of_ok (peek_of_byte (by rwa [cur, len]) (by rwa [cur])), shows]
    rfl

end Sys2Proof.Machine
end

section
/-! SUPPORT. A host against the block, cycle by cycle: what the block plays until it is ready again, how late the host's
offer is, and what the run's trace is then (42_playback.md R145, 70_reset_and_hazards.md R225,
93_implementation_defined.md U16). -/

namespace Sys2Proof.Machine

variable {s t : State} {l : List Bool} {η : Type}

/-! ### A cycle that accepts nothing -/

theorem sameData_coast (s : State) : SameData s (coast s) := sameData_advanced s _ _

/-- The block by itself leaves every register but those of the running operation. -/
theorem sameData_stable (s : State) : Stable (SameData s) := fun r h => h.trans (sameData_coast r)

theorem coast_st_of_ready (h : cmdReady s = true) : (coast s).st = .idle :=
  congrArg State.st (atAccept_of_ready (s := { s with inputs := [] }) h)

theorem cmdReady_of_idle (h : s.st = .idle) : cmdReady s = true := by simp [cmdReady, h]

theorem toneOut_of_idle (h : s.st = .idle) : toneOut s = false := by simp [toneOut, h]

/-- The operation plays on. -/
theorem Plays.coast (rest : Plays l (advance s)) (running : s.st ≠ .idle) : Plays l (coast s) := by
  rw [Machine.coast, advanced_of_busy (s := { s with inputs := [], draws := s.draws + 1 }) running,
    advance_of_inputs_draws]
  exact rest.of_inputs_draws _ _

/-- The tone from this cycle to the first in which the block is ready: this one alone in IDLE, else the rest of the
operation. -/
def Pending (l : List Bool) (s : State) : Prop := (s.st = .idle ∧ l = [false]) ∨ Plays l s

/-! ### Hosts and their runs

A host is what it drives in a cycle and what it is after it, or `none` where it has left. -/

/-- A run of a host: it ends where the host has left and no operation runs, with the tone of the cycles before. -/
inductive HostRuns (host : η → State → Option (Inputs × η)) : η → State → List Bool → State → Prop where
  | ends {h : η} {s : State} (gone : host h s = none) (idle : s.st = .idle) : HostRuns host h s [] s
  | waits {h : η} {s t : State} {tr : List Bool} (gone : host h s = none) (running : s.st ≠ .idle)
      (rest : HostRuns host h (coast s) tr t) : HostRuns host h s (toneOut s :: tr) t
  | drives {h h' : η} {p : Inputs} {s t u : State} {tr : List Bool} (acts : host h s = some (p, h'))
      (cycle : drive p s = .next u) (rest : HostRuns host h' u tr t) : HostRuns host h s (toneOut s :: tr) t

/-- The run of a host ends, and its trace and end state meet `Q`. -/
def RunsTo (host : η → State → Option (Inputs × η)) (h : η) (s : State) (Q : List Bool → State → Prop) : Prop :=
  ∃ tr t, HostRuns host h s tr t ∧ Q tr t

/-- In every state that `keeps` holds of, the host offers nothing for `d` cycles and then `w` until it is accepted; it
is `next` after that. -/
inductive Offers (host : η → State → Option (Inputs × η)) (keeps : State → Prop) (w : Word) (next : η) :
    Nat → η → Prop where
  | now {h : η} (acts : ∀ s, keeps s → host h s = some (.offer w, if cmdReady s then next else h)) :
      Offers host keeps w next 0 h
  | later {d : Nat} {h h' : η} (acts : ∀ s, keeps s → host h s = some (.quiet, h'))
      (rest : Offers host keeps w next d h') : Offers host keeps w next (d + 1) h

variable {host : η → State → Option (Inputs × η)} {h h' : η} {Q R : List Bool → State → Prop} {w : Word} {d : Nat}
  {keeps : State → Prop}

theorem RunsTo.mono (run : RunsTo host h s Q) (imp : ∀ tr t, Q tr t → R tr t) : RunsTo host h s R := by
  obtain ⟨tr, t, run, hQ⟩ := run
  exact ⟨tr, t, run, imp tr t hQ⟩

theorem runsTo_of_drives {p : Inputs} {u : State} (acts : host h s = some (p, h')) (cycle : drive p s = .next u)
    (rest : RunsTo host h' u fun tr t => Q (toneOut s :: tr) t) : RunsTo host h s Q := by
  obtain ⟨tr, t, run, hQ⟩ := rest
  exact ⟨_, t, .drives acts cycle run, hQ⟩

/-- A cycle in which the host offers nothing. -/
theorem runsTo_of_quiet (acts : host h s = some (.quiet, h'))
    (rest : RunsTo host h' (coast s) fun tr t => Q (toneOut s :: tr) t) : RunsTo host h s Q :=
  runsTo_of_drives acts (drive_eq rfl) rest

/-- Where the block is ready, the offer is accepted as soon as it is made; the cycles of delay are silent, but for the
tone of a finishing cycle. -/
theorem runsTo_of_offer_ready (stable : Stable keeps) (offers : Offers host keeps w h' d h) (hs : keeps s)
    (ready : cmdReady s = true)
    (next : ∀ r, keeps r → r.st = .idle → ∃ u, execWord w r = .next u ∧
      RunsTo host h' u fun tr t => Q (toneOut s :: (List.replicate d false ++ tr)) t) : RunsTo host h s Q := by
  have idle := coast_st_of_ready ready
  induction offers generalizing s Q with
  | now acts =>
    obtain ⟨u, hu, rest⟩ := next _ (stable s hs) idle
    have accepted : accepts (.offer w) s = true := accepts_eq_true.2 ⟨rfl, rfl, ready⟩
    refine runsTo_of_drives ((acts s hs).trans (by rw [if_pos ready])) ?_ rest
    rw [drive_eq rfl, if_pos accepted]
    exact hu
  | later acts _ ih =>
    have ready' := cmdReady_of_idle idle
    refine runsTo_of_quiet (acts s hs) (ih (stable s hs) ready' (fun r hr hi => ?_) (coast_st_of_ready ready'))
    rw [toneOut_of_idle idle]
    exact next r hr hi

/-- An offer that comes within the pending cycles is accepted in the last of them, and each cycle it is later adds a
silent one. -/
theorem runsTo_of_offer (stable : Stable keeps) (pending : Pending l s) (offers : Offers host keeps w h' d h)
    (hs : keeps s)
    (next : ∀ r, keeps r → r.st = .idle → ∃ u, execWord w r = .next u ∧
      RunsTo host h' u fun tr t => Q (l ++ List.replicate (d - (l.length - 1)) false ++ tr) t) : RunsTo host h s Q := by
  rcases pending with ⟨idle, rfl⟩ | plays
  · refine runsTo_of_offer_ready stable offers hs (cmdReady_of_idle idle) ?_
    rw [toneOut_of_idle idle]
    exact next
  · induction l generalizing s d h Q with
    | nil => exact absurd plays.length_pos (Nat.lt_irrefl 0)
    | cons b l ih =>
      cases plays with
      | last ended =>
        exact runsTo_of_offer_ready stable offers hs ((cmdReady_of_busy (Plays.last ended).st_ne_idle).trans ended) next
      | more running notEnded rest =>
        have plays := rest.coast running
        have notReady := (cmdReady_of_busy running).trans notEnded
        cases offers with
        | now acts =>
          have held : drive (.offer w) s = .next (coast s) := by
            rw [drive_eq rfl, accepts_of_not_ready notReady]
            rfl
          refine runsTo_of_drives ((acts s hs).trans (by rw [notReady]; rfl)) held
            (ih (.now acts) (stable s hs) ?_ plays)
          simpa using next
        | @later d _ _ acts offers =>
          have late : d + 1 - l.length = d - (l.length - 1) := by have := plays.length_pos; omega
          refine runsTo_of_quiet (acts s hs) (ih offers (stable s hs) ?_ plays)
          simpa [late] using next

/-- Once the host has left, the operation plays to its end. -/
theorem runsTo_of_gone (stable : Stable keeps) (plays : Plays l s) (gone : ∀ r, keeps r → host h r = none)
    (hs : keeps s) (ends : ∀ t, keeps t → t.st = .idle → Q l t) : RunsTo host h s Q := by
  induction l generalizing s Q with
  | nil => exact absurd plays.length_pos (Nat.lt_irrefl 0)
  | cons b l ih =>
    have wait {tr : List Bool} {t : State} := HostRuns.waits (t := t) (tr := tr) (gone s hs) plays.st_ne_idle
    cases plays with
    | last ended =>
      have idle : (coast s).st = .idle :=
        coast_st_of_ready ((cmdReady_of_busy (Plays.last ended).st_ne_idle).trans ended)
      exact ⟨_, _, wait (.ends (gone _ (stable s hs)) idle), ends _ (stable s hs) idle⟩
    | more running _ rest =>
      obtain ⟨tr, t, run, hQ⟩ := ih (Q := fun tr t => Q (toneOut s :: tr) t) (rest.coast running) (stable s hs) ends
      exact ⟨_, t, wait run, hQ⟩

/-- A cycle of a run, and the rest of it. -/
theorem thenRun_of_next {o : Host.Outcome State Fault Refusal} {k : State → Option (List Bool × State)} {u : State}
    {tr : List Bool} (cycle : o = .next u) (rest : k u = some (tr, t)) :
    thenRun s o k = some (toneOut s :: tr, t) := by
  rw [cycle, thenRun, rest]
  rfl

end Sys2Proof.Machine
end

section
/-! SUPPORT. The host of a command program, and what its runs leave (70_reset_and_hazards.md R225). -/

namespace Sys2Proof.Machine

variable {s t : State} {l : List Bool} {os : List HostOffer} {Q : List Bool → State → Prop}
  {P : State → Prop} {w : Word}

/-! ### The host of `runProgram` -/

/-- The host of a command program: it has left when nothing is left to offer. -/
def programHost (os : List HostOffer) (s : State) : Option (Inputs × List HostOffer) :=
  if os = [] then none else some (programInputs os, programAfter (cmdReady s) os)

/-- Its runs are those of `runProgram`, in one cycle more than the trace has. -/
theorem runProgram_of_hostRuns {tr : List Bool} (run : HostRuns programHost os s tr t) :
    runProgram (tr.length + 1) os s = some (tr, t) := by
  induction run with
  | @ends os s gone idle =>
    obtain rfl : os = [] := by simpa [programHost] using gone
    exact runProgram_done 0 idle
  | @waits os s t tr gone running _ ih =>
    obtain rfl : os = [] := by simpa [programHost] using gone
    exact (runProgram_cycle _ (by simp [running])).trans (thenRun_of_next (drive_eq rfl) ih)
  | @drives os os' p s t u tr acts cycle _ ih =>
    obtain ⟨more, rfl, rfl⟩ : os ≠ [] ∧ programInputs os = p ∧ programAfter (cmdReady s) os = os' := by
      simpa [programHost] using acts
    exact (runProgram_cycle _ (by simp [more])).trans (thenRun_of_next cycle ih)

theorem programHost_offers (keeps : State → Prop) (wait : Nat) (w : Word) (os : List HostOffer) :
    Offers programHost keeps w os wait (⟨wait, w⟩ :: os) := by
  induction wait with
  | zero => exact .now fun s _ => by cases h : cmdReady s <;> simp [programHost, h]
  | succ k ih => exact .later (fun s _ => by simp [programHost]) ih

/-- A word of a program is accepted in a state that differs from this one at most in the operation's registers. -/
theorem program_offers {wait : Nat} (pending : Pending l s)
    (next : ∀ r, SameData s r → r.st = .idle → ∃ u, execWord w r = .next u ∧
      RunsTo programHost os u fun tr t => Q (l ++ List.replicate (wait - (l.length - 1)) false ++ tr) t) :
    RunsTo programHost (⟨wait, w⟩ :: os) s Q :=
  runsTo_of_offer (sameData_stable s) pending (programHost_offers _ wait w os) (.refl s) next

/-! ### Programs that play nothing -/

/-- Offered in IDLE one after another, the commands `is` start no operation and end in a state with `P`. -/
def Silently (P : State → Prop) : List Instr → State → Prop
  | [], s      => P s
  | i :: is, s => ∀ r, SameData s r → r.st = .idle → ∃ u, exec i r = .next u ∧ u.st = .idle ∧ Silently P is u

/-- Such a program takes one cycle for each command and one for each cycle of delay. -/
theorem program_of_silently {is : List Instr} (hos : os.map HostOffer.word = is.map encode) (idle : s.st = .idle)
    (silent : Silently P is s) :
    RunsTo programHost os s fun tr t =>
      tr = List.replicate ((os.map HostOffer.wait).sum + is.length) false ∧ P t := by
  induction is generalizing os s with
  | nil =>
    obtain rfl := List.map_eq_nil_iff.1 hos
    exact ⟨[], s, .ends rfl idle, rfl, silent⟩
  | cons i is ih =>
    obtain ⟨⟨wait, w⟩, os, rfl, hw, rest⟩ := List.map_eq_cons_iff.1 hos
    obtain rfl : w = encode i := hw
    refine program_offers (.inl ⟨idle, rfl⟩) fun r same ready => ?_
    obtain ⟨u, hu, idle', silent'⟩ := silent r same ready
    refine ⟨u, (execWord_of_decode (decode_encode i)).trans hu,
      (ih rest idle' silent').mono fun tr t ⟨htr, hP⟩ => ⟨?_, hP⟩⟩
    have cycles : (wait + (os.map HostOffer.wait).sum) + (is.length + 1) =
        1 + (wait + ((os.map HostOffer.wait).sum + is.length)) := by omega
    change _ = List.replicate (wait + (os.map HostOffer.wait).sum + (is.length + 1)) false
    rw [htr, cycles, Nat.add_comm 1, List.append_assoc]
    exact congrArg (false :: ·) List.replicate_append_replicate

/-! ### LDSTR (30_encoding.md R91) -/

/-- `t` is `s` but for the buffer, which holds `bs` from the address `a` on and is as before elsewhere, and the
registers of the operation. -/
structure Stored (a : Nat) (bs : List Byte) (s t : State) : Prop where
  cfg     : t.cfg = s.cfg
  errCode : t.errCode = s.errCode
  errWord : t.errWord = s.errWord
  inside  : ∀ i b, bs[i]? = some b → bufLookup t.buf (a + i) = some b
  outside : ∀ x, x < a ∨ a + bs.length ≤ x → bufLookup t.buf x = bufLookup s.buf x

theorem Stored.nil (a : Nat) (s : State) : Stored a [] s s := ⟨rfl, rfl, rfl, nofun, fun _ _ => rfl⟩

theorem Stored.cons {a : Nat} {b : Byte} {bs : List Byte} {r : State} (same : SameData s r)
    (rest : Stored (a + 1) bs (bufWrite r a b) t) : Stored a (b :: bs) s t where
  cfg := rest.cfg.trans same.cfg
  errCode := rest.errCode.trans same.errCode
  errWord := rest.errWord.trans same.errWord
  inside
    | 0, _, hc => by
      rw [Nat.add_zero, rest.outside a (.inl (Nat.lt_succ_self a)), ← Option.some.inj hc]
      exact bufLookup_insert_self ..
    | i + 1, c, hc => by
      rw [Nat.add_comm i 1, ← Nat.add_assoc]
      exact rest.inside i c hc
  outside x hx := by
    rw [List.length_cons] at hx
    rw [rest.outside x (by omega), ← same.buf]
    exact bufLookup_insert_other _ _ (by omega)

/-- The WRBUFs of a string that fits store it, and start no operation. -/
theorem silently_wrbufs {a : Nat} {bs : List Byte} {is : List Instr} (depth : s.cfg.bufDepth ≤ 4095)
    (fits : a + bs.length ≤ s.cfg.bufDepth) (next : ∀ t, Stored a bs s t → Silently P is t) :
    Silently P (wrbufs a bs ++ is) s := by
  induction bs generalizing a s with
  | nil => exact next s (.nil a s)
  | cons b bs ih =>
    intro r same idle
    rw [List.length_cons] at fits
    have ha : (BitVec.ofNat 12 a).toNat = a := Nat.mod_eq_of_lt (by omega)
    have store := exec_wrbuf_of_fits (s := r) (a := BitVec.ofNat 12 a) b (by rw [ha, same.cfg]; omega)
    rw [ha] at store
    have cfg : (bufWrite r a b).cfg = s.cfg := same.cfg
    exact ⟨_, store, idle, ih (by rwa [cfg]) (by rw [cfg]; omega) fun t rest => next t (.cons same rest)⟩

/-- What LDSTR leaves: a buffer that is exactly `bs`, the cursor at its first byte. -/
def HandedOver (bs : List Byte) (s t : State) : Prop :=
  t.st = .idle ∧ t.cur = 0 ∧ Remaining t bs ∧ t.errCode = s.errCode ∧ t.errWord = s.errWord ∧
    ∀ x, bs.length ≤ x → bufLookup t.buf x = bufLookup s.buf x

/-- The LOAD of its length hands a stored string over. -/
theorem Stored.handedOver {bs : List Byte} {r : State} (stored : Stored 0 bs s t) (same : SameData t r)
    (idle : r.st = .idle) {length : Addr} (hlen : length.toNat = bs.length) :
    HandedOver bs s { r with len := length, cur := 0 } := by
  refine ⟨idle, rfl, ⟨by simpa using hlen.symm, fun i b hb => ?_⟩, same.errCode.trans stored.errCode,
    same.errWord.trans stored.errWord, fun x hx => ?_⟩
  · simpa [same.buf] using stored.inside i b hb
  · simpa [same.buf] using stored.outside x (.inr (by omega))

/-- The commands of LDSTR for a string that fits start no operation and hand the string over. -/
theorem silently_ldstr {bs : List Byte} (depth : s.cfg.bufDepth ≤ 4095) (fits : bs.length ≤ s.cfg.bufDepth) :
    Silently (HandedOver bs s) (wrbufs 0 bs ++ [.load (BitVec.ofNat 12 bs.length) 0]) s := by
  refine silently_wrbufs depth (by omega) fun t stored r same idle => ?_
  have hlen : (BitVec.ofNat 12 bs.length).toNat = bs.length := Nat.mod_eq_of_lt (by omega)
  have load := exec_load_of_fits (s := r) (a := BitVec.ofNat 12 bs.length) 0
    (by rw [hlen, same.cfg, stored.cfg]; exact fits)
  exact ⟨_, load, idle, stored.handedOver same idle hlen⟩

theorem wrbufs_length (a : Nat) (bs : List Byte) : (wrbufs a bs).length = bs.length := by
  induction bs generalizing a with
  | nil => rfl
  | cons b bs ih => rw [wrbufs, List.length_cons, ih, List.length_cons]

/-! ### CONSUME of the first of the bytes that remain, in the state it is accepted in -/

variable {b : Byte} {bs : List Byte}

theorem Remaining.inside (h : Remaining s (b :: bs)) : s.cur.toNat < s.len.toNat := by
  have length := h.1
  rw [List.length_cons] at length
  omega

theorem Remaining.byte (h : Remaining s (b :: bs)) : bufLookup s.buf s.cur.toNat = some b :=
  h.2 0 b rfl

/-- CONSUME passes the byte, and the others remain. -/
theorem consumeByte_of_remaining (h : Remaining s (b :: bs)) (hres : resolve b ≠ .unresolvable) :
    (consumeByte b s).cur.toNat = s.cur.toNat + 1 ∧ Remaining (consumeByte b s) bs := by
  obtain ⟨t, ht, cur, rest⟩ := exec_consume_of_remaining 0 0 h hres
  cases (exec_consume_of_byte 0 0 h.inside h.byte).symm.trans ht
  exact ⟨cur, rest⟩

/-- A CONSUME that finds a letter or digit starts its character; the other bytes remain. -/
theorem execWord_consume_of_signal {e : BitVec 8} (h : Remaining s (b :: bs)) (hres : resolve b = .signal e) :
    execWord (encode (.consume 0 0)) s = .next (startCharacter e s) ∧ Remaining (startCharacter e s) bs := by
  have takes := exec_consume_of_byte 0 0 h.inside h.byte
  have rest := (consumeByte_of_remaining h (by simp [hres])).2
  rw [consumeByte_of_signal hres] at takes rest
  exact ⟨(execWord_of_decode (decode_encode _)).trans takes, rest⟩

end Sys2Proof.Machine
end

section
/-! The statements on command programs (30_encoding.md section 4, 42_playback.md sections 2 and 4,
70_reset_and_hazards.md section 4). -/

namespace Sys2Proof.Machine

/-- Settles O49: the commands of LDSTR start no operation; its WRBUFs store the string, and its LOAD puts the cursor at
the first byte. -/
theorem ldstrHandsOverABuffer : Obligations.LdstrHandsOverABuffer := by
  intro s bs idle depth
  refine ⟨fun fits => ⟨_, ldstr_of_fits fits, ?runs⟩, fun long => by simp [ldstr, wrstr, long]⟩
  intro os hos n
  obtain ⟨tr, t, run, htr, ends⟩ := program_of_silently hos idle (silently_ldstr depth fits)
  have cycles : tr = List.replicate n false := by rw [htr, List.length_append, wrbufs_length]; rfl
  have runs := runProgram_of_hostRuns run
  rw [cycles, List.length_replicate] at runs
  exact ⟨t, runs, ends⟩

/-- Settles O55: the offers find IDLE, the first character and its GAP; each is accepted in the last cycle of what it
finds or as many cycles later as it is late. -/
theorem lateOffersLengthenTheSilence : Obligations.LateOffersLengthenTheSilence := by
  intro s b c e g i j k hv idle rem hb hc u late consume os
  have hu := unitCycles_pos hv
  have he := isEntry_of_resolve hb
  suffices runs : RunsTo programHost os s fun tr _ => tr = List.replicate (i + 1) false ++ characterTrace u e ++
      List.replicate (3 * u + late j (operationUnits e * u) + late k (3 * u)) false ++ characterTrace u g by
    obtain ⟨tr, t, run, rfl⟩ := runs
    exact ⟨_, t, runProgram_of_hostRuns run⟩
  refine program_offers (.inl ⟨idle, rfl⟩) fun r same _ => ?_
  obtain ⟨first, rem⟩ := execWord_consume_of_signal (same.remaining rem) hb
  have cfg : r.cfg = s.cfg := same.cfg
  refine ⟨_, first, program_offers (.inr (startCharacter_plays (by rwa [cfg]) he)) fun r' same' _ => ?_⟩
  have cfg' : r'.cfg = s.cfg := same'.cfg.trans cfg
  refine ⟨_, rfl, program_offers (.inr (startGap_plays (by rwa [cfg']))) fun r'' same'' _ => ?_⟩
  have cfg'' : r''.cfg = s.cfg := same''.cfg.trans cfg'
  obtain ⟨second, -⟩ := execWord_consume_of_signal (same''.remaining (same'.remaining rem)) hc
  refine ⟨_, second, runsTo_of_gone (sameData_stable _)
    (startCharacter_plays (by rwa [cfg'']) (isEntry_of_resolve hc)) (fun _ _ => rfl) (.refl _) fun _ _ _ => ?_⟩
  have silence : 3 * u + late j (operationUnits e * u) + late k (3 * u) =
      late j (operationUnits e * u) + (3 * u + late k (3 * u)) := by omega
  rw [cfg, cfg', cfg'', characterTrace_length _ he, silence]
  simp [late, u, List.replicate_succ, List.replicate_add, -List.replicate_append_replicate]

end Sys2Proof.Machine
end

section
/-! SUPPORT. The host loop as a host, and a trace with silent cycles added (60_exceptions.md R198,
93_implementation_defined.md U16). -/

namespace Sys2Proof.Machine

variable {s t : State} {l a tr : List Bool} {f : HostForm} {g : Bool} {p : HostPhase} {ds : List Nat} {i : Instr}
  {v : BitVec 9} {P P' : State → Prop}

/-! ### The host of `hostLoop` -/

/-- The host of the document's loop, by the delays before its commands and where it stands. -/
def loopHost (f : HostForm) (g : Bool) (h : List Nat × HostPhase) (s : State) :
    Option (Inputs × (List Nat × HostPhase)) :=
  (hostCommand f g h.2 s).map fun i =>
    if h.1.headD 0 = 0 then (.offer (encode i), if cmdReady s then (h.1.tail, hostPhaseAfter i) else h)
    else (.quiet, (delaysSpent h.1, h.2))

/-- Its runs are those of `hostLoop`, in one cycle more than the trace has. -/
theorem hostLoop_of_hostRuns {h : List Nat × HostPhase} (run : HostRuns (loopHost f g) h s tr t) :
    hostLoop f g (tr.length + 1) h.1 h.2 s = some (tr, t) := by
  induction run with
  | @ends h s gone idle => exact hostLoop_done 0 h.1 (Option.map_eq_none_iff.1 gone) idle
  | @waits h s t tr gone running _ ih =>
    exact (hostLoop_left _ h.1 (Option.map_eq_none_iff.1 gone) running).trans (thenRun_of_next (drive_eq rfl) ih)
  | @drives h h' p s t u tr acts cycle _ ih =>
    obtain ⟨i, command, acts⟩ := Option.map_eq_some_iff.1 acts
    by_cases delay : h.1.headD 0 = 0
    · rw [if_pos delay] at acts
      cases ready : cmdReady s with
      | true =>
        rw [ready, if_pos rfl] at acts
        cases acts
        exact (hostLoop_accepted _ command delay ready).trans (thenRun_of_next cycle ih)
      | false =>
        rw [ready, if_neg Bool.false_ne_true] at acts
        cases acts
        exact (hostLoop_held _ command delay ready).trans (thenRun_of_next cycle ih)
    · rw [if_neg delay] at acts
      cases acts
      exact (hostLoop_wait _ command delay).trans (thenRun_of_next cycle ih)

/-- What the host offers depends on no register of the running operation, where `peek()` is determined. -/
theorem SameData.hostCommand_eq (same : SameData s t) (hp : peek s = .ok v) :
    hostCommand f g p t = hostCommand f g p s := by
  have valid : peekValid t = peekValid s := by rw [peekValid, same.peekFields_eq hp, peekValid]
  cases p <;> simp only [hostCommand, loopHead, hostGap, charGap, valid, same.rsp, same.lastAct]

/-- The loop offers one command through the cycles of its delay and until it is accepted. -/
theorem loopHost_offers (hp : peek s = .ok v) (command : hostCommand f g p s = some i) :
    Offers (loopHost f g) (SameData s) (encode i) (ds.tail, hostPhaseAfter i) (ds.headD 0) (ds, p) := by
  have commands (r : State) (same : SameData s r) : hostCommand f g p r = some i :=
    (same.hostCommand_eq hp).trans command
  cases ds with
  | nil => exact .now fun r same => by simp [loopHost, commands r same]
  | cons d ds =>
    induction d with
    | zero => exact .now fun r same => by simp [loopHost, commands r same]
    | succ d ih => exact .later (fun r same => by simp [loopHost, commands r same]) ih

/-! ### A trace with silent cycles added -/

/-- `tr` is the trace `a` with silent cycles added, and `a` itself if the host has no delays. -/
structure Lengthens (ds : List Nat) (a tr : List Bool) : Prop where
  sublist : a.Sublist tr
  tone    : tr.count true = a.count true
  prompt  : ds = [] → tr = a

theorem Lengthens.refl (ds : List Nat) (a : List Bool) : Lengthens ds a a := ⟨.refl a, rfl, fun _ => rfl⟩

/-- The host's delay before a command adds silent cycles after the pending ones. -/
theorem Lengthens.after_delay (h : Lengthens ds.tail a tr) (l : List Bool) (n : Nat) :
    Lengthens ds (l ++ a) (l ++ List.replicate (ds.headD 0 - n) false ++ tr) where
  sublist := (List.sublist_append_left l _).append h.sublist
  tone := by simp [List.count_append, List.count_replicate, h.tone]
  prompt := fun prompt => by
    subst prompt
    simp [h.prompt rfl]

/-! ### The loop from a state on, whatever its delays -/

/-- Whatever the delays of the host, its loop ends with the trace `a`, silent cycles added, and in a state with `P`. -/
def LoopPlays (f : HostForm) (g : Bool) (p : HostPhase) (s : State) (a : List Bool) (P : State → Prop) : Prop :=
  ∀ ds, RunsTo (loopHost f g) (ds, p) s fun tr t => Lengthens ds a tr ∧ P t

theorem LoopPlays.mono (h : LoopPlays f g p s a P) (imp : ∀ t, P t → P' t) : LoopPlays f g p s a P' := fun ds =>
  (h ds).mono fun _ _ ⟨lengthens, hP⟩ => ⟨lengthens, imp _ hP⟩

/-- The host's next command is accepted once the pending cycles are over. -/
theorem loopPlays_command (pending : Pending l s) (hp : peek s = .ok v) (command : hostCommand f g p s = some i)
    (next : ∀ r, SameData s r → r.st = .idle → ∃ u, exec i r = .next u ∧ LoopPlays f g (hostPhaseAfter i) u a P) :
    LoopPlays f g p s (l ++ a) P := by
  intro ds
  refine runsTo_of_offer (sameData_stable s) pending (loopHost_offers hp command) (.refl s) fun r same idle => ?_
  obtain ⟨u, hu, plays⟩ := next r same idle
  exact ⟨u, (execWord_of_decode (decode_encode i)).trans hu,
    (plays ds.tail).mono fun tr t ⟨lengthens, hP⟩ => ⟨lengthens.after_delay l _, hP⟩⟩

/-- The host leaves an idle block at once. -/
theorem loopPlays_of_gone_idle (idle : s.st = .idle) (gone : hostCommand f g p s = none) (ends : P s) :
    LoopPlays f g p s [] P := fun ds =>
  ⟨[], s, .ends (by simp [loopHost, gone]) idle, .refl ds [], ends⟩

/-- Behind the last command of the host its operation plays to its end. -/
theorem loopPlays_of_gone (plays : Plays l s) (hp : peek s = .ok v) (gone : hostCommand f g p s = none)
    (ends : ∀ t, SameData s t → t.st = .idle → P t) : LoopPlays f g p s l P := fun ds =>
  runsTo_of_gone (sameData_stable s) plays
    (fun r same => by simp [loopHost, (same.hostCommand_eq hp).trans gone]) (.refl s)
    fun t same idle => ⟨.refl ds l, ends t same idle⟩

end Sys2Proof.Machine
end

section
/-! SUPPORT. The host loop plays the bytes that remain, one after another (60_exceptions.md R198, 92_eei_decisions.md
D24). -/

namespace Sys2Proof.Machine

variable {s t r : State} {l a : List Bool} {f : HostForm} {g : Bool} {p : HostPhase} {b : Byte} {bs : List Byte}
  {v : BitVec 9} {P : State → Prop} {n : Nat}

@[simp] theorem consumeByte_cfg (b : Byte) (s : State) : (consumeByte b s).cfg = s.cfg := by
  unfold consumeByte; split <;> simp
@[simp] theorem consumeByte_errCode (b : Byte) (s : State) : (consumeByte b s).errCode = s.errCode := by
  unfold consumeByte; split <;> simp
@[simp] theorem consumeByte_errWord (b : Byte) (s : State) : (consumeByte b s).errWord = s.errWord := by
  unfold consumeByte; split <;> simp

theorem byteTrace_of_signal {e : BitVec 8} (hres : resolve b = .signal e) (u : Nat) (gap : Bool) :
    byteTrace u gap b = characterTrace u e ++ if gap then List.replicate (3 * u) false else [] := by
  simp only [byteTrace, hres]

theorem byteTrace_of_silence (hres : resolve b = .silence) (u : Nat) (gap : Bool) :
    byteTrace u gap b = List.replicate (7 * u) false := by
  simp only [byteTrace, hres]

/-! ### Where the loop ends -/

/-- `t` is idle, the cursor `n` bytes behind that of `s` in the same buffer, and no error more is recorded. -/
structure EndsPast (s : State) (n : Nat) (t : State) : Prop where
  idle    : t.st = .idle
  len     : t.len = s.len
  cur     : t.cur.toNat = s.cur.toNat + n
  errCode : t.errCode = s.errCode
  errWord : t.errWord = s.errWord

theorem SameData.endsPast_zero (same : SameData s t) (idle : t.st = .idle) : EndsPast s 0 t :=
  ⟨idle, same.len, by rw [same.cur]; rfl, same.errCode, same.errWord⟩

theorem EndsPast.of_sameBuffer (h : EndsPast r n t) (same : SameBuffer s r) : EndsPast s n t :=
  ⟨h.idle, h.len.trans same.len, same.cur ▸ h.cur, h.errCode.trans same.errCode, h.errWord.trans same.errWord⟩

theorem EndsPast.of_consume (h : EndsPast (consumeByte b s) n t) (rem : Remaining s (b :: bs))
    (hres : resolve b ≠ .unresolvable) : EndsPast s (n + 1) t where
  idle := h.idle
  len := by simpa using h.len
  cur := by rw [h.cur, (consumeByte_of_remaining rem hres).1]; omega
  errCode := by simpa using h.errCode
  errWord := by simpa using h.errWord

/-! ### What the host sees of the bytes that remain -/

theorem playable_nil : playable [] = [] := rfl

/-- Every byte that remains is written, so `peek()` is determined; it shows a character if one is playable. -/
theorem Remaining.exists_peek (h : Remaining s bs) :
    ∃ v, peek s = .ok v ∧ (v.getLsbD 8 = true ↔ playable bs ≠ []) := by
  cases bs with
  | nil => exact ⟨0, peek_of_ended h.ended, by simp [playable_nil]⟩
  | cons b bs =>
    refine ⟨_, peek_of_byte h.inside h.byte, (peekByte_valid_iff_resolvable b).trans ?_⟩
    by_cases hres : resolve b = .unresolvable
    · simp [playable_cons_of_unresolvable bs hres, hres]
    · simp [playable_cons_of_resolved bs hres, hres]

theorem loopHead_status (hp : peek s = .ok v) (valid : v.getLsbD 8 = true) :
    loopHead .status s = some (.consume 0 0) := by
  rw [loopHead, if_pos ((peekValid_of_ok hp).trans valid)]

theorem loopHead_status_none (hp : peek s = .ok v) (valid : v.getLsbD 8 = false) :
    loopHead .status s = none := by
  simp [loopHead, peekValid_of_ok hp, valid, -BitVec.getLsbD_eq_getElem]

/-! ### The loop's head -/

/-- The cycle the PEEK form adds before each CONSUME. -/
def lead (f : HostForm) : List Bool := if f = .peek then [false] else []

/-- The PEEK of the loop's head leaves an idle block, with what it shows in `rsp`. -/
theorem loopPlays_peek (pending : Pending l s) (hp : peek s = .ok v)
    (head : hostCommand .peek g p s = loopHead .peek s)
    (next : ∀ r, SameBuffer s r → r.st = .idle → r.rsp = v → peek r = .ok v → LoopPlays .peek g .peeked r a P) :
    LoopPlays .peek g p s (l ++ a) P := by
  refine loopPlays_command pending hp head fun r same idle => ?_
  have shows := same.peek_eq.trans hp
  exact ⟨_, exec_peek_of_ok 0 0 shows,
    next { r with rsp := v } ⟨same.cfg, same.cur, same.len, same.buf, same.errCode, same.errWord⟩ idle rfl shows⟩

/-- Where nothing more is playable, the host leaves: after a last PEEK, or when the operation has ended. -/
theorem loopPlays_nothing (pending : Pending l s) (hp : peek s = .ok v) (valid : v.getLsbD 8 = false)
    (head : hostCommand f g p s = loopHead f s) (offers : f = .peek ∨ s.st ≠ .idle) :
    LoopPlays f g p s l (EndsPast s 0) := by
  cases f with
  | status =>
    have running := offers.resolve_left nofun
    have plays := pending.resolve_left fun idle => running idle.1
    exact loopPlays_of_gone plays hp (head.trans (loopHead_status_none hp valid)) fun t => SameData.endsPast_zero
  | peek =>
    rw [← List.append_nil l]
    refine loopPlays_peek pending hp head fun r same idle rsp _ => ?_
    have gone : hostCommand .peek g .peeked r = none := by
      simp [hostCommand, rsp, valid, -BitVec.getLsbD_eq_getElem]
    exact loopPlays_of_gone_idle idle gone (((SameData.refl r).endsPast_zero idle).of_sameBuffer same)

/-- Where a character is playable, both forms issue CONSUME. -/
theorem loopPlays_consume (pending : Pending l s) (hp : peek s = .ok v) (valid : v.getLsbD 8 = true)
    (head : hostCommand f g p s = loopHead f s)
    (next : ∀ r, SameBuffer s r → r.st = .idle → ∃ u, exec (.consume 0 0) r = .next u ∧ LoopPlays f g .consumed u a P) :
    LoopPlays f g p s (l ++ (lead f ++ a)) P := by
  cases f with
  | status =>
    exact loopPlays_command pending hp (head.trans (loopHead_status hp valid)) fun r same => next r same.toSameBuffer
  | peek =>
    refine loopPlays_peek pending hp head fun r same idle rsp hp' => ?_
    have command : hostCommand .peek g .peeked r = some (.consume 0 0) := by simp [hostCommand, rsp, valid]
    refine loopPlays_command (.inl ⟨idle, rfl⟩) hp' command fun r' same' idle' => ?_
    exact next r' (same.trans same'.toSameBuffer) idle'

/-! ### Byte by byte -/

/-- From its head on, with the cycles `l` pending, the loop plays the bytes `bs` that remain. In the status form an idle
block with nothing playable is left in the same cycle. -/
def PlaysRemaining (f : HostForm) (g : Bool) (bs : List Byte) : Prop :=
  ∀ {s l p}, Remaining s bs → 1 ≤ s.cfg.unitCycles → Pending l s → hostCommand f g p s = loopHead f s →
    (f = .peek ∨ s.st ≠ .idle ∨ playable bs ≠ []) →
    LoopPlays f g p s (l ++ bufferTrace (lead f) s.cfg.unitCycles g (playable bs)) (EndsPast s (playable bs).length)

/-- After CONSUME of a character the host issues GAP, or, if nothing more is playable and it so chooses, leaves it out. -/
theorem loopPlays_after_character {e : BitVec 8} (rest : PlaysRemaining f g bs) (hu : 1 ≤ s.cfg.unitCycles)
    (rem : Remaining (startCharacter e s) bs) (entry : IsEntry e) :
    LoopPlays f g .consumed (startCharacter e s)
      (characterTrace s.cfg.unitCycles e ++
        ((if g || !(playable bs).isEmpty then List.replicate (3 * s.cfg.unitCycles) false else []) ++
          bufferTrace (lead f) s.cfg.unitCycles g (playable bs)))
      (EndsPast (startCharacter e s) (playable bs).length) := by
  have plays := startCharacter_plays hu entry
  obtain ⟨v, hp, valid⟩ := rem.exists_peek
  rcases hostGap_cases g (startCharacter e s) with ⟨_, more, hgap⟩ | ⟨last, hgap⟩
  · have gap : (g || !(playable bs).isEmpty) = true := by
      rw [peekValid_of_ok hp, valid] at more
      simpa using more
    have command : hostCommand f g .consumed (startCharacter e s) = some (.gap 0 0) := by simp [hostCommand, hgap]
    rw [if_pos gap]
    refine loopPlays_command (.inr plays) hp command fun r same _ => ⟨_, rfl, ?_⟩
    have cfg : r.cfg = s.cfg := same.cfg
    have hu' : 1 ≤ r.cfg.unitCycles := by rwa [cfg]
    have again := rest (s := startSegment .cgap (3 * r.cfg.unitCycles) r) (p := .look) (same.remaining rem) hu'
      (.inr (startGap_plays hu')) rfl (.inr (.inl nofun))
    rw [startSegment_cfg, cfg] at again
    rw [cfg]
    exact again.mono fun t ends => ends.of_sameBuffer
      ⟨same.cfg, same.cur, same.len, same.buf, same.errCode, same.errWord⟩
  · obtain ⟨rfl, hidden⟩ := last.resolve_left (by simp)
    rw [peekValid_of_ok hp] at hidden
    have nothing : playable bs = [] := by
      by_contra more
      rw [valid.2 more] at hidden
      cases hidden
    have head : hostCommand f false .consumed (startCharacter e s) = loopHead f (startCharacter e s) := by
      simp [hostCommand, hgap]
    have again := rest rem hu (.inr plays) head (.inr (.inl nofun))
    simpa [nothing] using again

/-- After CONSUME of a space the host is at the loop's head again. -/
theorem loopPlays_after_space (rest : PlaysRemaining f g bs) (hu : 1 ≤ s.cfg.unitCycles)
    (rem : Remaining (startWordGap s) bs) :
    LoopPlays f g .consumed (startWordGap s)
      (List.replicate (7 * s.cfg.unitCycles) false ++ bufferTrace (lead f) s.cfg.unitCycles g (playable bs))
      (EndsPast (startWordGap s) (playable bs).length) := by
  have head : hostCommand f g .consumed (startWordGap s) = loopHead f (startWordGap s) := by
    simp [hostCommand, hostGap, charGap]
  exact rest rem hu (.inr (startWordGap_plays hu)) head (.inr (.inl nofun))

theorem loopPlays_after_consume (rest : PlaysRemaining f g bs) (hu : 1 ≤ s.cfg.unitCycles)
    (rem : Remaining s (b :: bs)) (hres : resolve b ≠ .unresolvable) :
    LoopPlays f g .consumed (consumeByte b s)
      (byteTrace s.cfg.unitCycles (g || !(playable bs).isEmpty) b ++
        bufferTrace (lead f) s.cfg.unitCycles g (playable bs))
      (EndsPast (consumeByte b s) (playable bs).length) := by
  have rem' := (consumeByte_of_remaining rem hres).2
  cases hb : resolve b with
  | unresolvable => exact absurd hb hres
  | silence =>
    rw [consumeByte_of_silence hb] at rem' ⊢
    rw [byteTrace_of_silence hb]
    exact loopPlays_after_space rest hu rem'
  | signal e =>
    rw [consumeByte_of_signal hb] at rem' ⊢
    rw [byteTrace_of_signal hb, List.append_assoc]
    exact loopPlays_after_character rest hu rem' (isEntry_of_resolve hb)

/-- By induction on the bytes: CONSUME passes the first, and its operation is what is pending for the others. -/
theorem playsRemaining (f : HostForm) (g : Bool) (bs : List Byte) : PlaysRemaining f g bs := by
  induction bs with
  | nil =>
    intro s l p rem hu pending head offers
    rw [playable_nil, bufferTrace_nil, List.append_nil]
    exact loopPlays_nothing pending (peek_of_ended rem.ended) rfl head (offers.imp_right (·.resolve_right (absurd rfl)))
  | cons b bs ih =>
    intro s l p rem hu pending head offers
    have shows := peek_of_byte rem.inside rem.byte
    by_cases hres : resolve b = .unresolvable
    · rw [playable_cons_of_unresolvable bs hres] at offers ⊢
      rw [peekByte_of_unres ((resolve_unresolvable_iff b).1 hres)] at shows
      rw [bufferTrace_nil, List.append_nil]
      exact loopPlays_nothing pending shows rfl head (offers.imp_right (·.resolve_right (absurd rfl)))
    · rw [playable_cons_of_resolved bs hres, bufferTrace_cons, List.append_assoc]
      refine loopPlays_consume pending shows ((peekByte_valid_iff_resolvable b).2 hres) head fun r same idle => ?_
      have rem' := same.remaining rem
      have plays := loopPlays_after_consume ih (by rwa [same.cfg]) rem' hres
      rw [same.cfg] at plays
      exact ⟨_, exec_consume_of_byte 0 0 rem'.inside rem'.byte,
        plays.mono fun t ends => (ends.of_consume rem' hres).of_sameBuffer same⟩

/-- The trace of the prompt host loop over the bytes that remain. -/
def promptTrace (f : HostForm) (g : Bool) (u : Nat) (bs : List Byte) : List Bool :=
  if f = .status ∧ playable bs = [] then [] else false :: bufferTrace (lead f) u g (playable bs)

/-- From an idle state the loop's first command is offered in the first cycle, if it has one. -/
theorem hostLoop_plays (f : HostForm) (g : Bool) (hv : s.cfg.Valid) (idle : s.st = .idle) (rem : Remaining s bs) :
    LoopPlays f g .look s (promptTrace f g s.cfg.unitCycles bs) (EndsPast s (playable bs).length) := by
  unfold promptTrace
  split
  case isTrue nothing =>
    obtain ⟨rfl, hnil⟩ := nothing
    obtain ⟨v, hp, valid⟩ := rem.exists_peek
    have gone : loopHead .status s = none := loopHead_status_none hp (by simpa [hnil] using valid)
    rw [hnil]
    exact loopPlays_of_gone_idle idle gone ((SameData.refl s).endsPast_zero idle)
  case isFalse something =>
    refine playsRemaining f g bs rem (unitCycles_pos hv) (.inl ⟨idle, rfl⟩) rfl ?_
    cases f with
    | status => exact .inr (.inr fun hnil => something ⟨rfl, hnil⟩)
    | peek => exact .inl rfl

end Sys2Proof.Machine
end

section
/-! SUPPORT. The prompt host loop over a buffer whose bytes are all resolvable. -/

namespace Sys2Proof.Machine

variable {s : State} {bs : List Byte}

theorem playable_eq_self (resolvable : ∀ b ∈ bs, resolve b ≠ .unresolvable) : playable bs = bs :=
  List.takeWhile_eq_self_iff.2 fun b hb => decide_eq_true (resolvable b hb)

/-- It plays every byte. -/
theorem hostLoop_plays_all (f : HostForm) (g : Bool) (hv : s.cfg.Valid) (idle : s.st = .idle) (rem : Remaining s bs)
    (nonempty : bs ≠ []) (resolvable : ∀ b ∈ bs, resolve b ≠ .unresolvable) {tr : List Bool}
    (trace : false :: bufferTrace (lead f) s.cfg.unitCycles g bs = tr) :
    ∃ fuel t, hostLoop f g fuel [] .look s = some (tr, t) := by
  obtain ⟨tr', t, run, lengthens, -⟩ := hostLoop_plays f g hv idle rem []
  have prompt : tr' = tr := by
    rw [lengthens.prompt rfl, promptTrace, playable_eq_self resolvable, if_neg fun nothing => nonempty nothing.2, trace]
  exact ⟨_, t, prompt ▸ hostLoop_of_hostRuns run⟩

end Sys2Proof.Machine
end

section
/-! The statements on the host loop (60_exceptions.md section 6, 42_playback.md section 4, 70_reset_and_hazards.md
section 4). -/

namespace Sys2Proof.Machine

/-- Settles O51: without delays the trace is the prompt one. -/
theorem hostLoopPlaysTheBuffer : Obligations.HostLoopPlaysTheBuffer := by
  intro f lastGap s bs hv idle rem
  obtain ⟨tr, t, run, lengthens, ends⟩ := hostLoop_plays f lastGap hv idle rem []
  have loop := hostLoop_of_hostRuns run
  rw [lengthens.prompt rfl] at loop
  exact ⟨_, t, loop, ends.idle, ends.len, ends.cur, ends.errCode, ends.errWord⟩

/-- Settles O56: with delays the trace lengthens the prompt one. -/
theorem lateHostLoopOnlyAddsSilence : Obligations.LateHostLoopOnlyAddsSilence := by
  intro f lastGap delays s bs hv idle rem prompt
  obtain ⟨tr, t, run, lengthens, ends⟩ := hostLoop_plays f lastGap hv idle rem delays
  exact ⟨_, tr, t, hostLoop_of_hostRuns run, lengthens.sublist, lengthens.tone, ends.idle, ends.len, ends.cur,
    ends.errCode, ends.errWord⟩

/-- Settles O52: it is the prompt trace over "SOS", with the tone of S and of O written out. -/
theorem sosIsTwentySevenUnits : Obligations.SosIsTwentySevenUnits := by
  intro s lastGap hv idle hcur hlen first second third u on off S O status peek final
  have rem : Remaining s [0x53, 0x4F, 0x53] := by
    refine ⟨by simp [hcur, hlen], fun i b hb => ?_⟩
    rw [hcur]
    match i, hb with
    | 0, hb => exact first.trans hb
    | 1, hb => exact second.trans hb
    | 2, hb => exact third.trans hb
  obtain ⟨resolveS, traceS, resolveO, traceO⟩ := characterToneIsItsPattern.1 u
  have letters (f : HostForm) : bufferTrace (lead f) u lastGap [0x53, 0x4F, 0x53] =
      lead f ++ (S ++ off 3) ++ (lead f ++ (O ++ off 3) ++ (lead f ++ (S ++ final))) := by
    rw [bufferTrace_cons, bufferTrace_cons, bufferTrace_cons, bufferTrace_nil, byteTrace_of_signal resolveS,
      byteTrace_of_signal resolveS, byteTrace_of_signal resolveO, traceS, traceO]
    simp [S, O, on, off, final]
  have plays (f : HostForm) {tr : List Bool} :=
    hostLoop_plays_all (tr := tr) f lastGap hv idle rem (by simp) (by decide)
  have lengthS : S.length = 5 * u := by simp [S, on, off]; ring
  have lengthO : O.length = 11 * u := by simp [O, on, off]; ring
  have lengthGap : (off 3).length = 3 * u := List.length_replicate
  have twentySeven : status.length = 27 * u := by
    simp only [status, List.length_append, lengthS, lengthO, lengthGap]; ring
  refine ⟨plays .status ?status, plays .peek ?peek, ?statusLength, ?peekLength, fun hms => ?seconds⟩
  case status => rw [letters]; simp [status, lead]
  case peek => rw [letters]; simp [peek, lead]
  case statusLength => exact twentySeven
  case peekLength =>
    simp only [peek, List.length_append, List.length_singleton, lengthS, lengthO, lengthGap]; ring
  case seconds =>
    have unit : u = 200 * s.cfg.cyclesPerMs := congrArg (· * s.cfg.cyclesPerMs) hms
    exact ⟨unit, by rw [twentySeven, unit]; ring⟩

/-- Settles O53: it is the prompt trace over the three bytes; the GAP of the character and the space are ten UNITs. -/
theorem wordSpacingIsTenUnits : Obligations.WordSpacingIsTenUnits := by
  intro s lastGap b c e g hv idle rem hb hc u
  have space : resolve 0x20 = .silence := by decide
  have resolvable : ∀ x ∈ [b, 0x20, c], resolve x ≠ .unresolvable := by
    simp only [List.forall_mem_cons, hb, hc, space]
    simp
  have ten : List.replicate (10 * u) false = List.replicate (3 * u) false ++ List.replicate (7 * u) false := by
    rw [List.replicate_append_replicate, ← Nat.add_mul]
  refine hostLoop_plays_all .status lastGap hv idle rem (by simp) resolvable ?_
  rw [bufferTrace_cons, bufferTrace_cons, bufferTrace_cons, bufferTrace_nil, byteTrace_of_signal hb,
    byteTrace_of_silence space, byteTrace_of_signal hc, ten]
  simp [lead, u, -List.replicate_append_replicate]

end Sys2Proof.Machine
end
